-- ==== Sys2Proof/Word.lean ====
section
/-! DEFINITION. The byte and the request word of the block, as bit vectors. -/

namespace Sys2Proof

/-- A framebuffer, source or wire byte: 8 bits, unsigned (R12). -/
abbrev Byte := BitVec 8

/-- A REQ64 request word: 64 bits (R71). -/
abbrev Word64 := BitVec 64

end Sys2Proof
end

