-- ==== Sys2Proof/Config.lean ====
section
/-! DEFINITION. What is fixed for the block: its geometry (R5), the field ranges of the wire commands (R6), the
constants of INIT (R7), and the parameters the source leaves open (R8, R27): those are free values, constants
that have no body. The contract of the transport port (R27, R28) stands here too, since its oracle is one of
the parameters. -/

namespace Sys2Proof

namespace Config

/-- R5: "width = 128 columns". -/
@[simp] abbrev width : Nat := 128
/-- R5: "height = 64 rows". -/
@[simp] abbrev height : Nat := 64
/-- R5: pixel rows in one page. -/
@[simp] abbrev pageRows : Nat := 8
/-- R5: `PAGES = HEIGHT / 8`. -/
@[simp] abbrev pages : Nat := 8
/-- R5: `BUF_SIZE = WIDTH * HEIGHT / 8`. -/
@[simp] abbrev bufSize : Nat := 1024
/-- R5: `PIXELS = WIDTH * HEIGHT`. -/
@[simp] abbrev pixels : Nat := 8192

/-- R6: "electronic-volume level 0–63". -/
@[simp] abbrev maxVolume : Nat := 63
/-- R6: "start line 0–63". -/
@[simp] abbrev maxStartLine : Nat := 63
/-- R6: "page address 0–7". -/
@[simp] abbrev maxPageAddr : Nat := 7
/-- R6: "column address 0–131 split into low/high nibble". -/
@[simp] abbrev maxColumnAddr : Nat := 131
/-- R107: the bound of the resistor ratio, from its opcode range 0x20..0x27. -/
@[simp] abbrev maxResRatio : Nat := 7

/-- R7: the value of "electronic-volume(40)", read as decimal (D10 of the spec; log entry 11). -/
@[simp] abbrev initVolume : Nat := 40
/-- R7: "start-line(0)". -/
@[simp] abbrev initStartLine : Nat := 0

end Config

/-- R8: the admissible values of `P_BIAS`, 0xA2 and 0xA3. -/
inductive BiasChoice where
  | oneNinth | oneSeventh
  deriving DecidableEq, Repr, Inhabited

/-- R8: the admissible values of `P_SEG`, 0xA0 and 0xA1, and of `P_COM`, 0xC0 and 0xC8. -/
inductive Direction where
  | normal | reverse
  deriving DecidableEq, Repr, Inhabited

/-- R8: the admissible values of each byte of `P_PWR`: 0x2C, 0x2E and 0x2F. -/
inductive PowerStage where
  | stage2C | stage2E | stage2F
  deriving DecidableEq, Repr, Inhabited

/-- R27: the payload of a transport failure. The spec takes an arbitrary type; the model names its values by
natural numbers (log entry 3). -/
structure TransportError where
  code : Nat
  deriving DecidableEq, Repr, Inhabited

/-- R27: the transport's answer to one write. -/
inductive Answer where
  | ok
  | err (e : TransportError)
  deriving DecidableEq, Repr, Inhabited

/-- R28: which of the transport's two operations a write used. -/
inductive WriteKind where
  | cmd | data
  deriving DecidableEq, Repr, Inhabited

/-- R28: one attempted transport write. -/
structure TraceEntry where
  kind   : WriteKind
  bytes  : List Byte
  answer : Answer
  deriving DecidableEq, Repr, Inhabited

namespace Config

/-- R8 `P_BIAS`: open. Any admissible value. -/
opaque pBias : BiasChoice
/-- R8 `P_SEG`: open. -/
opaque pSeg : Direction
/-- R8 `P_COM`: open. -/
opaque pCom : Direction
/-- R8 `P_RATIO`: open, one byte in 0x20..0x27; given here by its field. -/
opaque pRatio : Fin 8
/-- R8 `P_PWR[0]`: open. -/
opaque pPwr0 : PowerStage
/-- R8 `P_PWR[1]`: open. -/
opaque pPwr1 : PowerStage
/-- R8 `P_PWR[2]`: open. -/
opaque pPwr2 : PowerStage

/-- R27: the transport oracle, a free draw for every write. It may depend on all that was written before and on
the write itself. It answers only where State's own list of scripted answers is used up (log entry 2). -/
opaque transport : List TraceEntry → WriteKind → List Byte → Answer

end Config

end Sys2Proof
end

