-- ==== Sys2Proof/Syntax.lean ====
section
/-! DEFINITION. The instructions: one constructor for each row of the opcode table, the 18 wire commands the block
emits (R60) and the 8 requests it accepts (R70, R76). -/

namespace Sys2Proof

/-- The instruction set (R1: "the set of host requests" and "the set of wire commands it emits").
A wire command's operand is the natural number its constructor takes in R101 to R119; `COL_LO` and `COL_HI` take
the whole column. A request is the abstract request of R76. -/
inductive Instr where
  /-- R101 -/
  | bias19
  /-- R102 -/
  | bias17
  /-- R103 -/
  | segNormal
  /-- R104 -/
  | segReverse
  /-- R105 -/
  | comNormal
  /-- R106 -/
  | comReverse
  /-- R107 -/
  | resRatio (r : Nat)
  /-- R108 -/
  | setVolume (v : Nat)
  /-- R109 -/
  | pwrCtrl2C
  /-- R110 -/
  | pwrCtrl2E
  /-- R111 -/
  | pwrCtrl2F
  /-- R112 -/
  | startLine (l : Nat)
  /-- R113 -/
  | pageAddr (p : Nat)
  /-- R114: `c` is the whole column address. -/
  | colLo (c : Nat)
  /-- R115: `c` is the whole column address. -/
  | colHi (c : Nat)
  /-- R117 -/
  | displayOn
  /-- R118 -/
  | displayOff
  /-- R119 -/
  | swReset
  /-- R195 -/
  | init
  /-- R197 -/
  | reset
  /-- R140 -/
  | clear
  /-- R141 -/
  | setPixel (x y : Nat) (on : Bool)
  /-- R165 -/
  | draw (src : List Byte)
  /-- R164 -/
  | boundedDraw (src : List Byte) (x0 y0 x1 y1 : Nat)
  /-- R166 -/
  | flush
  /-- R192 -/
  | intoBuffered
  deriving DecidableEq, Repr

/-- The mnemonics of R60 and R70, as the opcode table spells them. -/
def Instr.mnemonic : Instr → String
  | .bias19 => "BIAS_1_9"
  | .bias17 => "BIAS_1_7"
  | .segNormal => "SEG_NORMAL"
  | .segReverse => "SEG_REVERSE"
  | .comNormal => "COM_NORMAL"
  | .comReverse => "COM_REVERSE"
  | .resRatio _ => "RES_RATIO"
  | .setVolume _ => "SET_VOLUME"
  | .pwrCtrl2C => "PWR_CTRL_2C"
  | .pwrCtrl2E => "PWR_CTRL_2E"
  | .pwrCtrl2F => "PWR_CTRL_2F"
  | .startLine _ => "START_LINE"
  | .pageAddr _ => "PAGE_ADDR"
  | .colLo _ => "COL_LO"
  | .colHi _ => "COL_HI"
  | .displayOn => "DISPLAY_ON"
  | .displayOff => "DISPLAY_OFF"
  | .swReset => "SW_RESET"
  | .init => "INIT"
  | .reset => "RESET"
  | .clear => "CLEAR"
  | .setPixel _ _ _ => "SET_PIXEL"
  | .draw _ => "DRAW"
  | .boundedDraw _ _ _ _ _ => "BOUNDED_DRAW"
  | .flush => "FLUSH"
  | .intoBuffered => "INTO_BUFFERED"

/-- R70 against R60: a request is what a host may issue; the other instructions are wire commands, which only the
block itself builds. -/
def Instr.isRequest : Instr → Bool
  | .bias19 | .bias17 | .segNormal | .segReverse | .comNormal | .comReverse => false
  | .resRatio _ | .setVolume _ | .pwrCtrl2C | .pwrCtrl2E | .pwrCtrl2F | .startLine _ => false
  | .pageAddr _ | .colLo _ | .colHi _ | .displayOn | .displayOff | .swReset => false
  | .init | .reset | .clear | .setPixel _ _ _ | .draw _ | .boundedDraw _ _ _ _ _ => true
  | .flush | .intoBuffered => true

end Sys2Proof
end

