-- ==== Sys2Proof/Machine/State.lean ====
section
/-! DEFINITION. What the block holds (R21), the ports it is driven through, and its state after power-on (R33). -/

namespace Sys2Proof.Machine

/-- R22: the field `MODE` of the mode register. -/
inductive Mode where
  | directWrite | buffered
  deriving DecidableEq, Repr

/-- R23: the framebuffer's bytes by index, in one canonical form: indices strictly rising, and only bytes that
differ from what an unlisted index reads as. -/
abbrev Memory := List Host.Cell

/-- R31: where one page of a region flush stands. -/
inductive Phase where
  | page | colLo | colHi | data
  deriving DecidableEq, Repr

/-- R31: the position of the running request: in a region flush the page and the phase; in the fixed list of INIT
(R195) the number of the command, counted from 0, or the last one; in RESET its one command (log entry 15). -/
inductive Sequencer where
  | initCommand (k : Nat)
  | flush (p : Nat) (phase : Phase)
  | displayOn
  | swReset
  deriving DecidableEq, Repr

/-- R220: why a request ends refused, with what is recorded. -/
inductive RefusalReason where
  /-- Code 3: the mode does not admit the request (R191). -/
  | modeGate
  /-- Code 4: a reserved request word, and the word (R74). -/
  | encoding (w : Word64)
  deriving DecidableEq, Repr

/-- R220: why a request ends faulted, with what is recorded. -/
inductive FaultReason where
  /-- Code 5: BOUNDED_DRAW with a valid rectangle and a source buffer of this other length (R164). -/
  | srcLength (len : Nat)
  /-- Code 6: a command whose field is out of range (R120). -/
  | commandRange
  deriving DecidableEq, Repr

/-- R13: the outcome a request ends in. -/
inductive Response where
  | ok
  | outOfBounds
  | transportFailure (e : TransportError)
  | refused (r : RefusalReason)
  | faulted (r : FaultReason)
  deriving DecidableEq, Repr

/-- R76: the abstract request, the normative form of what a host issues. -/
inductive Request where
  | init | reset | clear | flush | intoBuffered
  | setPixel (x y : Nat) (on : Bool)
  | draw (src : List Byte)
  | boundedDraw (src : List Byte) (x0 y0 x1 y1 : Nat)
  deriving DecidableEq, Repr

/-- R2: one item on the request port: a request word with what the source-buffer port carries beside it (R25, R75),
or an abstract request (R76). -/
inductive PortItem where
  | word (w : Word64) (src : List Byte)
  | abstract (r : Request)
  deriving DecidableEq, Repr

/-- The block. `mode` to `seq` are the state of R21 and R31. The fields after them are the model's own: what the
outside world has put on the block's ports (log entries 1 and 2), and the response on the request port (log
entry 5). -/
structure State where
  /-- R22 -/
  mode     : Mode
  /-- R23: present exactly in Buffered mode. -/
  fb       : Option Memory
  /-- R28: the oldest write first. -/
  trace    : List TraceEntry
  /-- R29 -/
  rpc      : Nat
  /-- R30: the mark `refused`, with its reason. -/
  refused  : Option RefusalReason
  /-- R30: the mark `faulted`, with its reason. -/
  faulted  : Option FaultReason
  /-- R31: present only while a request runs. -/
  seq      : Option Sequencer
  /-- The requests the host issues, the next one first; while a request runs it is the first one. -/
  port     : List PortItem
  /-- The transport's answers to the next writes; where the list is used up the oracle answers. -/
  answers  : List Answer
  /-- R32: the outcome returned with the latest request that ended. -/
  response : Option Response
  deriving DecidableEq, Repr

/-- Why a step stops with a fault. -/
inductive Fault where
  /-- Raised by `step` alone, for a block whose mark `faulted` is set: it accepts no request (R30, R224). Safe: the
  spec says the block is stopped. -/
  | stopped (r : FaultReason)
  /-- Raised by CLEAR, SET_PIXEL and FLUSH where the mode is Buffered and there is no framebuffer, which R23 rules
  out: an access to memory that does not exist. No state that meets `State.Inv` raises it. Safe: it stops. -/
  | noFramebuffer
  /-- Raised by `step` alone where a sequencer state stands that is no position of the request at the head of the
  request port: R31 gives a position to a running request only. No state that meets `State.Inv` raises it. Safe: it
  stops (log entry 7). -/
  | noPosition
  deriving DecidableEq, Repr

/-- Why a step has no meaning. -/
inductive Refusal where
  /-- Raised by an arm of `exec` that has no meaning yet; no arm is in that case. Safe: it stops. -/
  | notModelled (mnemonic : String)
  /-- Raised by `step` alone, for a block whose mark `refused` is set: it accepts no request (R30, R223). Safe: the
  spec says the block is stopped. -/
  | stopped (r : RefusalReason)
  deriving DecidableEq, Repr

/-- R33: the state after power-on, nothing on the ports. -/
def State.reset : State where
  mode := .directWrite
  fb := none
  trace := []
  rpc := 0
  refused := none
  faulted := none
  seq := none
  port := []
  answers := []
  response := none

end Sys2Proof.Machine
end

