-- ==== Sys2Proof/Machine/Flags.lean ====
section
/-! DEFINITION. The block has no flags and no condition codes (R32). Its only bits are the mode bit (R22) and the two
sticky marks (R30); a request's outcome has a numeric code (R220). -/

namespace Sys2Proof.Machine

/-- R22: the bit of the mode register. -/
def Mode.bit : Mode → BitVec 1
  | .directWrite => 0
  | .buffered => 1

/-- R30: the one-bit mark `refused`. -/
def State.refusedBit (s : State) : Bool := s.refused.isSome

/-- R30: the one-bit mark `faulted`. -/
def State.faultedBit (s : State) : Bool := s.faulted.isSome

/-- R220: the outcome codes. -/
def Response.code : Response → Nat
  | .ok => 0
  | .outOfBounds => 1
  | .transportFailure _ => 2
  | .refused .modeGate => 3
  | .refused (.encoding _) => 4
  | .faulted (.srcLength _) => 5
  | .faulted .commandRange => 6

/-- R29, R30: the outcomes that complete a request; the others stop the block. -/
def Response.completes : Response → Bool
  | .ok | .outOfBounds | .transportFailure _ => true
  | .refused _ | .faulted _ => false

end Sys2Proof.Machine
end

