-- ==== Sys2Proof/WellFormed.lean ====
section
/-! DEFINITION. The instructions that have an encoding: a wire command whose field is in its range (R6, R64) and a
request whose coordinates fit the 8-bit fields of the request word (R9, R71). -/

namespace Sys2Proof

/-- True when the instruction's operands are ones its encoding can spell. An abstract request with a coordinate
of 256 or more is not well-formed in this sense and has its meaning all the same (R76). -/
def Instr.wf : Instr → Bool
  | .resRatio r => decide (r ≤ Config.maxResRatio)
  | .setVolume v => decide (v ≤ Config.maxVolume)
  | .startLine l => decide (l ≤ Config.maxStartLine)
  | .pageAddr p => decide (p ≤ Config.maxPageAddr)
  | .colLo c => decide (c ≤ Config.maxColumnAddr)
  | .colHi c => decide (c ≤ Config.maxColumnAddr)
  | .setPixel x y _ => decide (x < 256) && decide (y < 256)
  | .boundedDraw _ x0 y0 x1 y1 => decide (x0 < 256) && decide (y0 < 256) && decide (x1 < 256) && decide (y1 < 256)
  | .bias19 | .bias17 | .segNormal | .segReverse | .comNormal | .comReverse => true
  | .pwrCtrl2C | .pwrCtrl2E | .pwrCtrl2F | .displayOn | .displayOff | .swReset => true
  | .init | .reset | .clear | .draw _ | .flush | .intoBuffered => true

/-- The same check as a proposition. -/
@[simp] abbrev Instr.WellFormed (i : Instr) : Prop := i.wf = true

end Sys2Proof
end

