-- ==== Sys2Proof/Decode.lean ====
section
/-! DEFINITION. The two encodings of the block, read and written: the wire commands (30_encoding.md part A) and the
request words (part B). The decoders are total and reject by name; the encoder stands after them, written from
the same tables. -/

namespace Sys2Proof

/-- Why no instruction is read. -/
inductive DecodeError where
  /-- R67: the bytes of a command write that are no row of R60. -/
  | unlistedCommand (bytes : List Byte)
  /-- R74: a request word that matches no row of R73. -/
  | reservedWord (w : Word64)
  deriving DecidableEq, Repr

/-- The words of one instruction: the bytes of one command write, or a request word with what the source-buffer
port carries beside it (R75). -/
inductive Code where
  | command (bytes : List Byte)
  | request (w : Word64) (src : List Byte)
  deriving DecidableEq, Repr

/-! ## Wire commands, formats W1, W1F and W2 -/

/-- One row of the wire table of R60 whose command is one byte: the byte `b` is of the row when
`b &&& mask = pattern`. -/
structure CommandRow where
  pattern : Byte
  mask    : Byte
  make    : Byte → Instr

/-- R61: the rows of format W1, a whole byte fixed by the mnemonic. -/
def plainRows : List CommandRow :=
  [⟨0xA2, 0xFF, fun _ => .bias19⟩, ⟨0xA3, 0xFF, fun _ => .bias17⟩,
   ⟨0xA0, 0xFF, fun _ => .segNormal⟩, ⟨0xA1, 0xFF, fun _ => .segReverse⟩,
   ⟨0xC0, 0xFF, fun _ => .comNormal⟩, ⟨0xC8, 0xFF, fun _ => .comReverse⟩,
   ⟨0x2C, 0xFF, fun _ => .pwrCtrl2C⟩, ⟨0x2E, 0xFF, fun _ => .pwrCtrl2E⟩, ⟨0x2F, 0xFF, fun _ => .pwrCtrl2F⟩,
   ⟨0xAF, 0xFF, fun _ => .displayOn⟩, ⟨0xAE, 0xFF, fun _ => .displayOff⟩, ⟨0xE2, 0xFF, fun _ => .swReset⟩]

/-- R62: the rows of format W1F, a field in the low bits. A column nibble is read as the column whose other nibble
is zero: 0x05 is `COL_LO 5`, 0x12 is `COL_HI 32` (log entry 8). -/
def fieldRows : List CommandRow :=
  [⟨0x20, 0xF8, fun b => .resRatio (b &&& 0x07).toNat⟩,
   ⟨0x40, 0xC0, fun b => .startLine (b &&& 0x3F).toNat⟩,
   ⟨0xB0, 0xF8, fun b => .pageAddr (b &&& 0x07).toNat⟩,
   ⟨0x00, 0xF0, fun b => .colLo (b &&& 0x0F).toNat⟩,
   ⟨0x10, 0xF0, fun b => .colHi ((b &&& 0x0F).toNat * 16)⟩]

/-- The one-byte rows of R60. -/
def commandRows : List CommandRow := plainRows ++ fieldRows

/-- R60, R66, R67: the command that the bytes of one command write spell. A field outside its range spells none
(R64): 0x19..0x1F match the mask of `COL_HI` and are no command. -/
def decodeCommand : List Byte → Except DecodeError Instr
  | [b] =>
    match commandRows.find? (fun row => decide (b &&& row.mask = row.pattern)) with
    | some row => if (row.make b).wf then .ok (row.make b) else .error (.unlistedCommand [b])
    | none => .error (.unlistedCommand [b])
  | [op, v] =>
    if op == 0x81 && (v &&& 0xC0 == 0x00) then .ok (.setVolume v.toNat) else .error (.unlistedCommand [op, v])
  | bytes => .error (.unlistedCommand bytes)

/-! ## Request words, format REQ64 -/

/-- R71: `OPC`, bits 7:0. -/
def reqOpc (w : Word64) : Byte := w.extractLsb' 0 8
/-- R71: `X0`, bits 15:8. -/
def reqX0 (w : Word64) : Byte := w.extractLsb' 8 8
/-- R71: `Y0`, bits 23:16. -/
def reqY0 (w : Word64) : Byte := w.extractLsb' 16 8
/-- R71: `X1`, bits 31:24. -/
def reqX1 (w : Word64) : Byte := w.extractLsb' 24 8
/-- R71: `Y1`, bits 39:32. -/
def reqY1 (w : Word64) : Byte := w.extractLsb' 32 8
/-- R71: `ON`, bit 40. -/
def reqOn (w : Word64) : Bool := w.getLsbD 40
/-- R71: the reserved bits 63:41. -/
def reqReserved (w : Word64) : BitVec 23 := w.extractLsb' 41 23

/-- One row of R73. -/
structure RequestRow where
  pattern : Word64
  mask    : Word64
  make    : Word64 → List Byte → Instr

/-- R73: "A word `w` spells request `R` if and only if `(w & mask_R) = match_R`". -/
def RequestRow.spells (r : RequestRow) (w : Word64) : Bool := decide (w &&& r.mask = r.pattern)

/-- The table of R73, with the fields R72 gives each request. -/
def requestRows : List RequestRow :=
  [⟨0x0000000000000001, 0xFFFFFFFFFFFFFFFF, fun _ _ => .init⟩,
   ⟨0x0000000000000002, 0xFFFFFFFFFFFFFFFF, fun _ _ => .reset⟩,
   ⟨0x0000000000000003, 0xFFFFFFFFFFFFFFFF, fun _ _ => .clear⟩,
   ⟨0x0000000000000004, 0xFFFFFEFFFF0000FF, fun w _ => .setPixel (reqX0 w).toNat (reqY0 w).toNat (reqOn w)⟩,
   ⟨0x0000000000000005, 0xFFFFFFFFFFFFFFFF, fun _ src => .draw src⟩,
   ⟨0x0000000000000006, 0xFFFFFF00000000FF, fun w src =>
      .boundedDraw src (reqX0 w).toNat (reqY0 w).toNat (reqX1 w).toNat (reqY1 w).toNat⟩,
   ⟨0x0000000000000007, 0xFFFFFFFFFFFFFFFF, fun _ _ => .flush⟩,
   ⟨0x0000000000000008, 0xFFFFFFFFFFFFFFFF, fun _ _ => .intoBuffered⟩]

/-- R74: decoding a request word, with the bytes on the source-buffer port (R75). -/
def decodeRequest (w : Word64) (src : List Byte) : Except DecodeError Instr :=
  match requestRows.find? (fun r => r.spells w) with
  | some r => .ok (r.make w src)
  | none => .error (.reservedWord w)

/-- The instruction that an instruction's words spell. -/
def decode : Code → Except DecodeError Instr
  | .command bytes => decodeCommand bytes
  | .request w src => decodeRequest w src

/-! ## The command constructors of 41_command_encoder.md

Each returns the bytes of its command, or no value where its field is out of range (R64, R120). -/

/-- R101 -/
def Cmd.bias19 : Option (List Byte) := some [0xA2]
/-- R102 -/
def Cmd.bias17 : Option (List Byte) := some [0xA3]
/-- R103 -/
def Cmd.segNormal : Option (List Byte) := some [0xA0]
/-- R104 -/
def Cmd.segReverse : Option (List Byte) := some [0xA1]
/-- R105 -/
def Cmd.comNormal : Option (List Byte) := some [0xC0]
/-- R106 -/
def Cmd.comReverse : Option (List Byte) := some [0xC8]
/-- R107 -/
def Cmd.resRatio (r : Nat) : Option (List Byte) :=
  if r ≤ Config.maxResRatio then some [0x20 ||| BitVec.ofNat 8 r] else none
/-- R108: opcode and level in one sequence. -/
def Cmd.setVolume (v : Nat) : Option (List Byte) :=
  if v ≤ Config.maxVolume then some [0x81, BitVec.ofNat 8 v] else none
/-- R109 -/
def Cmd.pwrCtrl2C : Option (List Byte) := some [0x2C]
/-- R110 -/
def Cmd.pwrCtrl2E : Option (List Byte) := some [0x2E]
/-- R111 -/
def Cmd.pwrCtrl2F : Option (List Byte) := some [0x2F]
/-- R112 -/
def Cmd.startLine (l : Nat) : Option (List Byte) :=
  if l ≤ Config.maxStartLine then some [0x40 ||| BitVec.ofNat 8 l] else none
/-- R113 -/
def Cmd.pageAddr (p : Nat) : Option (List Byte) :=
  if p ≤ Config.maxPageAddr then some [0xB0 ||| BitVec.ofNat 8 p] else none
/-- R114: the low nibble of the column. -/
def Cmd.colLo (c : Nat) : Option (List Byte) :=
  if c ≤ Config.maxColumnAddr then some [0x00 ||| (BitVec.ofNat 8 c &&& 0x0F)] else none
/-- R115: the high nibble of the column. -/
def Cmd.colHi (c : Nat) : Option (List Byte) :=
  if c ≤ Config.maxColumnAddr then some [0x10 ||| ((BitVec.ofNat 8 c >>> 4) &&& 0x0F)] else none
/-- R117 -/
def Cmd.displayOn : Option (List Byte) := some [0xAF]
/-- R118 -/
def Cmd.displayOff : Option (List Byte) := some [0xAE]
/-- R119 -/
def Cmd.swReset : Option (List Byte) := some [0xE2]

/-- The constructor of a wire command, applied to its field; a request has none. -/
def Instr.command : Instr → Option (List Byte)
  | .bias19 => Cmd.bias19
  | .bias17 => Cmd.bias17
  | .segNormal => Cmd.segNormal
  | .segReverse => Cmd.segReverse
  | .comNormal => Cmd.comNormal
  | .comReverse => Cmd.comReverse
  | .resRatio r => Cmd.resRatio r
  | .setVolume v => Cmd.setVolume v
  | .pwrCtrl2C => Cmd.pwrCtrl2C
  | .pwrCtrl2E => Cmd.pwrCtrl2E
  | .pwrCtrl2F => Cmd.pwrCtrl2F
  | .startLine l => Cmd.startLine l
  | .pageAddr p => Cmd.pageAddr p
  | .colLo c => Cmd.colLo c
  | .colHi c => Cmd.colHi c
  | .displayOn => Cmd.displayOn
  | .displayOff => Cmd.displayOff
  | .swReset => Cmd.swReset
  | .init | .reset | .clear | .setPixel _ _ _ | .draw _ | .boundedDraw _ _ _ _ _ | .flush | .intoBuffered => none

/-! ## The encoder -/

/-- R71: a request word from its fields, the reserved bits 0. -/
def requestWord (opc x0 y0 x1 y1 : Byte) (on : Bool) : Word64 :=
  opc.zeroExtend 64 ||| (x0.zeroExtend 64 <<< 8) ||| (y0.zeroExtend 64 <<< 16) ||| (x1.zeroExtend 64 <<< 24) |||
    (y1.zeroExtend 64 <<< 32) ||| ((BitVec.ofBool on).zeroExtend 64 <<< 40)

/-- R72, R73: the word of a request that uses no field but `OPC`. -/
def opcodeWord (opc : Byte) : Word64 := requestWord opc 0 0 0 0 false

/-- The words of a well-formed instruction, and none of any other. For the six requests that take no source
buffer the port is left empty (R75). -/
def encode (i : Instr) : Option Code :=
  match i with
  | .bias19 => Cmd.bias19.map .command
  | .bias17 => Cmd.bias17.map .command
  | .segNormal => Cmd.segNormal.map .command
  | .segReverse => Cmd.segReverse.map .command
  | .comNormal => Cmd.comNormal.map .command
  | .comReverse => Cmd.comReverse.map .command
  | .resRatio r => (Cmd.resRatio r).map .command
  | .setVolume v => (Cmd.setVolume v).map .command
  | .pwrCtrl2C => Cmd.pwrCtrl2C.map .command
  | .pwrCtrl2E => Cmd.pwrCtrl2E.map .command
  | .pwrCtrl2F => Cmd.pwrCtrl2F.map .command
  | .startLine l => (Cmd.startLine l).map .command
  | .pageAddr p => (Cmd.pageAddr p).map .command
  | .colLo c => (Cmd.colLo c).map .command
  | .colHi c => (Cmd.colHi c).map .command
  | .displayOn => Cmd.displayOn.map .command
  | .displayOff => Cmd.displayOff.map .command
  | .swReset => Cmd.swReset.map .command
  | .init => some (.request (opcodeWord 0x01) [])
  | .reset => some (.request (opcodeWord 0x02) [])
  | .clear => some (.request (opcodeWord 0x03) [])
  | .setPixel x y on =>
    if x < 256 ∧ y < 256 then
      some (.request (requestWord 0x04 (BitVec.ofNat 8 x) (BitVec.ofNat 8 y) 0 0 on) [])
    else none
  | .draw src => some (.request (opcodeWord 0x05) src)
  | .boundedDraw src x0 y0 x1 y1 =>
    if x0 < 256 ∧ y0 < 256 ∧ x1 < 256 ∧ y1 < 256 then
      some (.request (requestWord 0x06 (BitVec.ofNat 8 x0) (BitVec.ofNat 8 y0) (BitVec.ofNat 8 x1)
        (BitVec.ofNat 8 y1) false) src)
    else none
  | .flush => some (.request (opcodeWord 0x07) [])
  | .intoBuffered => some (.request (opcodeWord 0x08) [])

/-- What the encoding keeps of an instruction's operands: all of them, but that a column command carries one
nibble of its column (R62). -/
def Instr.carried : Instr → Instr
  | .colLo c => .colLo (c % 16)
  | .colHi c => .colHi (c / 16 * 16)
  | .resRatio r => .resRatio r
  | .setVolume v => .setVolume v
  | .startLine l => .startLine l
  | .pageAddr p => .pageAddr p
  | .setPixel x y on => .setPixel x y on
  | .draw src => .draw src
  | .boundedDraw src x0 y0 x1 y1 => .boundedDraw src x0 y0 x1 y1
  | .bias19 => .bias19 | .bias17 => .bias17
  | .segNormal => .segNormal | .segReverse => .segReverse
  | .comNormal => .comNormal | .comReverse => .comReverse
  | .pwrCtrl2C => .pwrCtrl2C | .pwrCtrl2E => .pwrCtrl2E | .pwrCtrl2F => .pwrCtrl2F
  | .displayOn => .displayOn | .displayOff => .displayOff | .swReset => .swReset
  | .init => .init | .reset => .reset | .clear => .clear | .flush => .flush | .intoBuffered => .intoBuffered

/-! ## The words as the opcode table numbers them -/

/-- The source buffer that stands beside a table word: the expected 1024 bytes (R25), all zero. -/
def tableSrc : List Byte := List.replicate Config.bufSize 0

/-- The bytes of the one-write command that a table row of 8 or 16 bits stands for. The table writes the 16-bit row
with its first byte in bits 15:8 (SET_VOLUME, pattern 0x8100); a word numbered with its first byte in bits 7:0 is
read as well, and no word is a command both ways (log entry 9). -/
def tableBytes (nbits w : Nat) : List Byte :=
  let lo : Byte := BitVec.ofNat 8 w
  let hi : Byte := BitVec.ofNat 8 (w / 256)
  if nbits = 16 then
    match decodeCommand [hi, lo] with
    | .ok _ => [hi, lo]
    | .error _ => [lo, hi]
  else [lo]

/-- The words of a table row: a row of 8 or 16 bits is a command write, a row of 64 bits a request word. -/
def tableCode (nbits w : Nat) : Option Code :=
  if nbits = 8 ∨ nbits = 16 then some (.command (tableBytes nbits w))
  else if nbits = 64 then some (.request (BitVec.ofNat 64 w) tableSrc)
  else none

/-- The instruction the decoder reads from a word numbered as the opcode table numbers it. -/
def decodeTableWord (nbits w : Nat) : Option Instr :=
  match tableCode nbits w with
  | some c =>
    match decode c with
    | .ok i => some i
    | .error _ => none
  | none => none

end Sys2Proof
end

