-- ==== Sys2Proof/Machine/Operands.lean ====
section
/-! DEFINITION. The operand arithmetic of the requests: where a pixel lies (R42), how a byte changes when one of its
pixels does (R141), which rectangles are valid (R161) and which pages they touch (R162). -/

namespace Sys2Proof.Machine

/-! ## Pixels -/

/-- R42: the page of a pixel row. -/
def pageOf (y : Nat) : Nat := y / Config.pageRows

/-- R42: the bit of a pixel row in its byte; bit 0 is the topmost row. -/
def bitOf (y : Nat) : Nat := y % Config.pageRows

/-- R42: the index of the byte that holds pixel `(x, y)`. -/
def indexOf (x y : Nat) : Nat := pageOf y * Config.width + x

/-- R141: the pixels SET_PIXEL accepts. -/
def validPixel (x y : Nat) : Bool := decide (x < Config.width) && decide (y < Config.height)

/-- R141: `(b & ~(1 << bit)) | (zext_8(on) << bit)`. -/
def replaceBit (b : Byte) (bit : Nat) (on : Bool) : Byte :=
  (b &&& ~~~((1 : Byte) <<< bit)) ||| ((BitVec.ofBool on).zeroExtend 8 <<< bit)

/-! ## Rectangles -/

/-- R14: a rectangle by its inclusive corners, top left `(x0, y0)` and bottom right `(x1, y1)`. -/
structure Rect where
  x0 : Nat
  y0 : Nat
  x1 : Nat
  y1 : Nat
  deriving DecidableEq, Repr

/-- The whole display, `(0, 0)` to `(127, 63)` (R165). -/
def Rect.whole : Rect := ⟨0, 0, 127, 63⟩

/-- R161: both corners on the display, and the first not beyond the second in either axis. -/
def Rect.valid (r : Rect) : Bool :=
  decide (r.x0 < Config.width) && decide (r.y0 < Config.height) &&
  decide (r.x1 < Config.width) && decide (r.y1 < Config.height) &&
  decide (r.x0 ≤ r.x1) && decide (r.y0 ≤ r.y1)

/-- R162: the first page a rectangle touches. -/
def Rect.firstPage (r : Rect) : Nat := pageOf r.y0

/-- R162: the last page a rectangle touches. -/
def Rect.lastPage (r : Rect) : Nat := pageOf r.y1

/-- R167: the number of pages a rectangle touches. -/
def Rect.pageCount (r : Rect) : Nat := r.lastPage + 1 - r.firstPage

/-- R160, R163: the bytes sent for each page, columns `x0` to `x1`. -/
def Rect.columns (r : Rect) : Nat := r.x1 + 1 - r.x0

/-! ## Requests -/

/-- R76: the instruction an abstract request is. -/
def Request.toInstr : Request → Instr
  | .init => .init
  | .reset => .reset
  | .clear => .clear
  | .flush => .flush
  | .intoBuffered => .intoBuffered
  | .setPixel x y on => .setPixel x y on
  | .draw src => .draw src
  | .boundedDraw src x0 y0 x1 y1 => .boundedDraw src x0 y0 x1 y1

end Sys2Proof.Machine
end

