-- ==== Sys2Proof/Machine/Ops.lean ====
section
/-! DEFINITION. The shared operations: the framebuffer's bytes (R23), the byte spaces a data write reads (R40), one
transport write (R27, R28, R100), how a request ends (R13, R220 to R225), and the mode gate (R190, R191). -/

namespace Sys2Proof.Machine

/-! ## The framebuffer -/

/-- R23: what a byte that nothing has written since the entry to Buffered mode reads as, "a fresh zeroed
Framebuffer". -/
def Memory.unlisted : Byte := 0x00

/-- R192: a framebuffer with every byte 0. -/
def Memory.zeroed : Memory := []

/-- R11: `fb[i]`. -/
def Memory.read : Memory → Nat → Byte
  | [], _ => Memory.unlisted
  | (b, u) :: m, a => if a = b then u else Memory.read m a

/-- R11: `fb[i] <- v`. A byte that is written back to what an unlisted one reads as leaves the list. -/
def Memory.write : Memory → Nat → Byte → Memory
  | [], a, v => if v = Memory.unlisted then [] else [(a, v)]
  | (b, u) :: m, a, v =>
    if a < b then (if v = Memory.unlisted then (b, u) :: m else (a, v) :: (b, u) :: m)
    else if a = b then (if v = Memory.unlisted then m else (a, v) :: m)
    else (b, u) :: Memory.write m a v

/-- The canonical form of the part of a framebuffer from index `lo` on. -/
def Memory.wfFrom : Nat → Memory → Bool
  | _, [] => true
  | lo, (a, v) :: m =>
    decide (lo ≤ a) && decide (a < Config.bufSize) && decide (v ≠ Memory.unlisted) && Memory.wfFrom (a + 1) m

/-- R23, R24: indices strictly rising, all within the 1024 bytes, and no byte listed that reads as an unlisted one
does. -/
def Memory.wf (m : Memory) : Bool := Memory.wfFrom 0 m

/-! ## The byte spaces -/

/-- R40, R160: the space a region flush reads. -/
inductive Source where
  | fb (m : Memory)
  | src (bytes : List Byte)
  | zero
  deriving DecidableEq, Repr

/-- R11: `MemRead(S, a, n)`, the `n` bytes from index `a` in index order. Of a source buffer it takes the bytes that
are there. -/
def memRead : Source → Nat → Nat → List Byte
  | .fb m, a, n => (List.range' a n).map m.read
  | .src bytes, a, n => (bytes.drop a).take n
  | .zero, _, n => List.replicate n 0x00

/-! ## One transport write -/

/-- Where a request stands after an operation: it goes on, or it has ended. -/
inductive Progress where
  | going (s : State)
  | ended (r : Response) (s : State)
  deriving DecidableEq, Repr

/-- The operation `f` follows where the request goes on. -/
def Progress.bind : Progress → (State → Progress) → Progress
  | .going s, f => f s
  | .ended r s, _ => .ended r s

/-- R27: the transport's answer to a write of `bytes` made in state `s`: the next scripted one, and where none is
left the oracle's. -/
def State.answer (s : State) (kind : WriteKind) (bytes : List Byte) : Answer :=
  match s.answers with
  | a :: _ => a
  | [] => Config.transport s.trace kind bytes

/-- R28: the write and its answer join the trace. -/
def State.record (s : State) (kind : WriteKind) (bytes : List Byte) (a : Answer) : State :=
  { s with trace := s.trace ++ [⟨kind, bytes, a⟩], answers := s.answers.tail }

/-- R27, R28, R222: one write and its answer; an `err` ends the request with the error passed on. -/
def emitWrite (kind : WriteKind) (bytes : List Byte) (s : State) : Progress :=
  match s.answer kind bytes with
  | .ok => .going (s.record kind bytes .ok)
  | .err e => .ended (.transportFailure e) (s.record kind bytes (.err e))

/-- R11: `EmitData(bs)`. -/
def emitData (bytes : List Byte) (s : State) : Progress := emitWrite .data bytes s

/-- R100, R120: `EmitCommand(cmd)`, one command write; a constructor that gave no value faults. -/
def emitCommand (cmd : Option (List Byte)) (s : State) : Progress :=
  match cmd with
  | none => .ended (.faulted .commandRange) s
  | some bytes => emitWrite .cmd bytes s

/-! ## The end of a request -/

/-- R29, R30, R31, R220: a request ends. Its outcome is on the request port and its sequencer state is discarded; an
outcome of the source advances `rpc`, a refusal or a fault sets its mark and leaves `rpc`. -/
def endRequest (r : Response) (s : State) : State :=
  match r with
  | .refused reason => { s with seq := none, response := some (.refused reason), refused := some reason }
  | .faulted reason => { s with seq := none, response := some (.faulted reason), faulted := some reason }
  | .ok => { s with seq := none, response := some .ok, rpc := s.rpc + 1 }
  | .outOfBounds => { s with seq := none, response := some .outOfBounds, rpc := s.rpc + 1 }
  | .transportFailure e => { s with seq := none, response := some (.transportFailure e), rpc := s.rpc + 1 }

/-- The state a request leaves: one that is still going returns `Ok`. -/
def Progress.finish : Progress → State
  | .going s => endRequest .ok s
  | .ended r s => endRequest r s

/-- The state one write of a request leaves: while the transport answers `ok` the request goes on (R49), and otherwise
it has ended (R222, R120). -/
def Progress.afterWrite : Progress → State
  | .going s => s
  | .ended r s => endRequest r s

/-! ## The mode gate -/

/-- R190, R191: a request admitted only in mode `m` ends refused in the other, before every other check. -/
def gated (m : Mode) (body : State → Host.Outcome State Fault Refusal) (s : State) :
    Host.Outcome State Fault Refusal :=
  if s.mode = m then body s else .next (endRequest (.refused .modeGate) s)

/-- R23: the body of a request that needs the framebuffer. -/
def withFramebuffer (body : Memory → State → State) (s : State) : Host.Outcome State Fault Refusal :=
  match s.fb with
  | some m => .next (body m s)
  | none => .fault .noFramebuffer

end Sys2Proof.Machine
end

