-- ==== Sys2Proof/Machine/Command.lean ====
section
/-! DEFINITION. The wire commands (41_command_encoder.md): each is one command write of the bytes its constructor
gives (R100), and faults where the constructor gives none (R120). A step runs one only where it is the write due
in a request under way (Machine/Resume.lean, log entry 4). -/

namespace Sys2Proof.Machine

/-- R101 -/
def execBias19 (s : State) : Host.Outcome State Fault Refusal := .next (emitCommand Cmd.bias19 s).afterWrite

/-- R102 -/
def execBias17 (s : State) : Host.Outcome State Fault Refusal := .next (emitCommand Cmd.bias17 s).afterWrite

/-- R103 -/
def execSegNormal (s : State) : Host.Outcome State Fault Refusal := .next (emitCommand Cmd.segNormal s).afterWrite

/-- R104 -/
def execSegReverse (s : State) : Host.Outcome State Fault Refusal := .next (emitCommand Cmd.segReverse s).afterWrite

/-- R105 -/
def execComNormal (s : State) : Host.Outcome State Fault Refusal := .next (emitCommand Cmd.comNormal s).afterWrite

/-- R106 -/
def execComReverse (s : State) : Host.Outcome State Fault Refusal := .next (emitCommand Cmd.comReverse s).afterWrite

/-- R107 -/
def execResRatio (r : Nat) (s : State) : Host.Outcome State Fault Refusal :=
  .next (emitCommand (Cmd.resRatio r) s).afterWrite

/-- R108 -/
def execSetVolume (v : Nat) (s : State) : Host.Outcome State Fault Refusal :=
  .next (emitCommand (Cmd.setVolume v) s).afterWrite

/-- R109 -/
def execPwrCtrl2C (s : State) : Host.Outcome State Fault Refusal := .next (emitCommand Cmd.pwrCtrl2C s).afterWrite

/-- R110 -/
def execPwrCtrl2E (s : State) : Host.Outcome State Fault Refusal := .next (emitCommand Cmd.pwrCtrl2E s).afterWrite

/-- R111 -/
def execPwrCtrl2F (s : State) : Host.Outcome State Fault Refusal := .next (emitCommand Cmd.pwrCtrl2F s).afterWrite

/-- R112 -/
def execStartLine (l : Nat) (s : State) : Host.Outcome State Fault Refusal :=
  .next (emitCommand (Cmd.startLine l) s).afterWrite

/-- R113 -/
def execPageAddr (p : Nat) (s : State) : Host.Outcome State Fault Refusal :=
  .next (emitCommand (Cmd.pageAddr p) s).afterWrite

/-- R114 -/
def execColLo (c : Nat) (s : State) : Host.Outcome State Fault Refusal :=
  .next (emitCommand (Cmd.colLo c) s).afterWrite

/-- R115 -/
def execColHi (c : Nat) (s : State) : Host.Outcome State Fault Refusal :=
  .next (emitCommand (Cmd.colHi c) s).afterWrite

/-- R117 -/
def execDisplayOn (s : State) : Host.Outcome State Fault Refusal := .next (emitCommand Cmd.displayOn s).afterWrite

/-- R118: no request emits it, so no step runs this meaning. -/
def execDisplayOff (s : State) : Host.Outcome State Fault Refusal := .next (emitCommand Cmd.displayOff s).afterWrite

/-- R119: it resets the controller, not the block (R33). -/
def execSwReset (s : State) : Host.Outcome State Fault Refusal := .next (emitCommand Cmd.swReset s).afterWrite

end Sys2Proof.Machine
end

