-- ==== Sys2Proof/Machine/Sequencer.lean ====
section
/-! DEFINITION. The sequencer (R31): which write is due at each position of a running request, which position
follows, and the run from a position to the request's last write. The region flush (R160), INIT (R195) and RESET
(R197) are runs of it. -/

namespace Sys2Proof.Machine

/-! ## The parameters of INIT (R8) -/

/-- R101, R102 -/
def biasCommand : BiasChoice → Instr
  | .oneNinth => .bias19
  | .oneSeventh => .bias17

/-- R103, R104 -/
def segCommand : Direction → Instr
  | .normal => .segNormal
  | .reverse => .segReverse

/-- R105, R106 -/
def comCommand : Direction → Instr
  | .normal => .comNormal
  | .reverse => .comReverse

/-- R109, R110, R111 -/
def stageCommand : PowerStage → Instr
  | .stage2C => .pwrCtrl2C
  | .stage2E => .pwrCtrl2E
  | .stage2F => .pwrCtrl2F

/-- R194: the nine commands INIT begins with, in order. -/
def initCommands : List Instr :=
  [biasCommand Config.pBias, segCommand Config.pSeg, comCommand Config.pCom, .resRatio Config.pRatio.val,
   .setVolume Config.initVolume,
   stageCommand Config.pPwr0, stageCommand Config.pPwr1, stageCommand Config.pPwr2,
   .startLine Config.initStartLine]

/-! ## What a request sends -/

/-- The requests that make transport writes, past their checks: INIT, RESET, and the region flush of a source over a
rectangle, which BOUNDED_DRAW, DRAW and FLUSH are. -/
inductive Job where
  | init
  | reset
  | flush (source : Source) (rect : Rect)
  deriving DecidableEq, Repr

/-- R160, R195: what the page loop of a request reads. -/
def Job.source : Job → Source
  | .flush source _ => source
  | .init | .reset => .zero

/-- R160, R195: the rectangle of a request's page loop. -/
def Job.rect : Job → Rect
  | .flush _ rect => rect
  | .init | .reset => Rect.whole

/-- R160, R195: what follows the page loop. -/
def Job.after : Job → Option Sequencer
  | .init => some .displayOn
  | .reset | .flush _ _ => none

/-! ## Positions and writes -/

/-- The write due at a position: a wire command, or data. -/
inductive Due where
  | command (i : Instr)
  | data (bytes : List Byte)
  deriving DecidableEq, Repr

/-- R160, R194, R195, R197: the write due at each position. The list of INIT has nine commands, so a number beyond
them is no position (`Job.positions`). -/
def Job.due (j : Job) : Sequencer → Due
  | .initCommand k => .command (initCommands.getD k .displayOn)
  | .flush p .page => .command (.pageAddr p)
  | .flush _ .colLo => .command (.colLo j.rect.x0)
  | .flush _ .colHi => .command (.colHi j.rect.x0)
  | .flush p .data => .data (memRead j.source (p * Config.width + j.rect.x0) j.rect.columns)
  | .displayOn => .command .displayOn
  | .swReset => .command .swReset

/-- R31, R160, R195: the position after the write at a position has been answered `ok`. -/
def Job.advance (j : Job) : Sequencer → Option Sequencer
  | .initCommand k =>
    if k + 1 < initCommands.length then some (.initCommand (k + 1)) else some (.flush j.rect.firstPage .page)
  | .flush p .page => some (.flush p .colLo)
  | .flush p .colLo => some (.flush p .colHi)
  | .flush p .colHi => some (.flush p .data)
  | .flush p .data => if p < j.rect.lastPage then some (.flush (p + 1) .page) else j.after
  | .displayOn => none
  | .swReset => none

/-- R31: the four positions of one page. -/
def pagePositions (p : Nat) : List Sequencer := [.flush p .page, .flush p .colLo, .flush p .colHi, .flush p .data]

/-- R31, R162: the positions of a region flush over a rectangle. -/
def Rect.positions (r : Rect) : List Sequencer := (List.range' r.firstPage r.pageCount).flatMap pagePositions

/-- R31: the positions a request goes through, in order. -/
def Job.positions : Job → List Sequencer
  | .init => (List.range initCommands.length).map .initCommand ++ Rect.whole.positions ++ [.displayOn]
  | .reset => [.swReset]
  | .flush _ rect => rect.positions

/-! ## The run -/

/-- Emit the write that is due. -/
def emitDue : Due → State → Progress
  | .command i, s => emitCommand i.command s
  | .data bytes, s => emitData bytes s

/-- R31: the sequencer's run, at most `n` writes: emit the write due at the position the state holds, and advance
while the transport answers `ok`. -/
def runSequencer (j : Job) : Nat → State → Progress
  | 0, s => .going s
  | n + 1, s =>
    match s.seq with
    | none => .going s
    | some q => (emitDue (j.due q) s).bind fun s' => runSequencer j n { s' with seq := j.advance q }

/-- The run of a request from its first position on. -/
def Job.run (j : Job) (s : State) : Progress :=
  runSequencer j j.positions.length { s with seq := j.positions.head? }

/-- R160: `REGION_FLUSH(S, x0, y0, x1, y1)`: four writes for every page the rectangle touches. -/
def regionFlush (source : Source) (r : Rect) (s : State) : Progress := (Job.flush source r).run s

end Sys2Proof.Machine
end

