-- ==== Sys2Proof/Machine/Driver.lean ====
section
/-! DEFINITION. Driver control (44_driver_control.md): INTO_BUFFERED, INIT and RESET. -/

namespace Sys2Proof.Machine

/-- R192: enter Buffered mode with a fresh zeroed framebuffer. -/
def execIntoBuffered (s : State) : Host.Outcome State Fault Refusal :=
  gated .directWrite
    (fun s => .next (endRequest .ok { s with mode := .buffered, fb := some Memory.zeroed })) s

/-- R195: the power-up commands, a zero draw of the whole display, display on. -/
def execInit (s : State) : Host.Outcome State Fault Refusal := .next (Job.init.run s).finish

/-- R197: the controller's software reset, one command write. The block itself is not reset (R33). -/
def execReset (s : State) : Host.Outcome State Fault Refusal := .next (Job.reset.run s).finish

end Sys2Proof.Machine
end

