-- ==== Sys2Proof/Machine/Framebuffer.lean ====
section
/-! DEFINITION. The framebuffer bit packer (42_framebuffer.md): CLEAR and SET_PIXEL. Both act on the framebuffer alone
and make no transport write. -/

namespace Sys2Proof.Machine

/-- R140: every framebuffer byte becomes 0, none is read. -/
def execClear (s : State) : Host.Outcome State Fault Refusal :=
  gated .buffered (withFramebuffer fun _ s => endRequest .ok { s with fb := some Memory.zeroed }) s

/-- R141: the read-modify-write of one byte. -/
def setPixel (m : Memory) (x y : Nat) (on : Bool) : Memory :=
  m.write (indexOf x y) (replaceBit (m.read (indexOf x y)) (bitOf y) on)

/-- R141: the mode, then the bounds, then the one bit that holds pixel `(x, y)`. -/
def execSetPixel (x y : Nat) (on : Bool) (s : State) : Host.Outcome State Fault Refusal :=
  gated .buffered
    (fun s =>
      if validPixel x y then withFramebuffer (fun m s => endRequest .ok { s with fb := some (setPixel m x y on) }) s
      else .next (endRequest .outOfBounds s))
    s

end Sys2Proof.Machine
end

