-- ==== Sys2Proof/Machine/RegionFlush.lean ====
section
/-! DEFINITION. The region flush encoder (43_region_flush.md): BOUNDED_DRAW, DRAW and FLUSH. None of them writes the
framebuffer; only FLUSH reads it. -/

namespace Sys2Proof.Machine

/-- R164: the rectangle is checked, then the source buffer's length, then its pages are sent. -/
def execBoundedDraw (src : List Byte) (x0 y0 x1 y1 : Nat) (s : State) : Host.Outcome State Fault Refusal :=
  .next
    (if Rect.valid ⟨x0, y0, x1, y1⟩ then
      (if src.length = Config.bufSize then (regionFlush (.src src) ⟨x0, y0, x1, y1⟩ s).finish
       else endRequest (.faulted (.srcLength src.length)) s)
     else endRequest .outOfBounds s)

/-- R165: the source buffer's length is checked, then the whole display is sent. -/
def execDraw (src : List Byte) (s : State) : Host.Outcome State Fault Refusal :=
  .next
    (if src.length = Config.bufSize then (regionFlush (.src src) Rect.whole s).finish
     else endRequest .outOfBounds s)

/-- R166: the whole framebuffer is sent. -/
def execFlush (s : State) : Host.Outcome State Fault Refusal :=
  gated .buffered (withFramebuffer fun m s => (regionFlush (.fb m) Rect.whole s).finish) s

end Sys2Proof.Machine
end

