-- ==== Sys2Proof/Machine/Dispatch.lean ====
section
/-! DEFINITION. One arm per row of the opcode table. -/

namespace Sys2Proof.Machine

def exec (i : Instr) (s : State) : Host.Outcome State Fault Refusal :=
  match i with
  -- 41_command_encoder.md
  | .bias19 => Sys2Proof.Machine.execBias19 s
  | .bias17 => Sys2Proof.Machine.execBias17 s
  | .segNormal => Sys2Proof.Machine.execSegNormal s
  | .segReverse => Sys2Proof.Machine.execSegReverse s
  | .comNormal => Sys2Proof.Machine.execComNormal s
  | .comReverse => Sys2Proof.Machine.execComReverse s
  | .resRatio r => Sys2Proof.Machine.execResRatio r s
  | .setVolume v => Sys2Proof.Machine.execSetVolume v s
  | .pwrCtrl2C => Sys2Proof.Machine.execPwrCtrl2C s
  | .pwrCtrl2E => Sys2Proof.Machine.execPwrCtrl2E s
  | .pwrCtrl2F => Sys2Proof.Machine.execPwrCtrl2F s
  | .startLine l => Sys2Proof.Machine.execStartLine l s
  | .pageAddr p => Sys2Proof.Machine.execPageAddr p s
  | .colLo c => Sys2Proof.Machine.execColLo c s
  | .colHi c => Sys2Proof.Machine.execColHi c s
  | .displayOn => Sys2Proof.Machine.execDisplayOn s
  | .displayOff => Sys2Proof.Machine.execDisplayOff s
  | .swReset => Sys2Proof.Machine.execSwReset s
  -- 44_driver_control.md
  | .init => Sys2Proof.Machine.execInit s
  | .reset => Sys2Proof.Machine.execReset s
  -- 42_framebuffer.md
  | .clear => Sys2Proof.Machine.execClear s
  | .setPixel x y on => Sys2Proof.Machine.execSetPixel x y on s
  -- 43_region_flush.md
  | .draw src => Sys2Proof.Machine.execDraw src s
  | .boundedDraw src x0 y0 x1 y1 => Sys2Proof.Machine.execBoundedDraw src x0 y0 x1 y1 s
  | .flush => Sys2Proof.Machine.execFlush s
  -- 44_driver_control.md
  | .intoBuffered => Sys2Proof.Machine.execIntoBuffered s

end Sys2Proof.Machine
end

