-- ==== Sys2Proof/Machine/Fetch.lean ====
section
/-! DEFINITION. What the block takes from its request port. There is no instruction memory (R51): requests come from
that port alone, one at a time (R2), and no wire command does (41_command_encoder.md). -/

namespace Sys2Proof.Machine

/-- R74, R76: the request an item on the request port is, or why it is none. -/
def PortItem.request : PortItem → Except RefusalReason Instr
  | .word w src =>
    match decodeRequest w src with
    | .ok i => .ok i
    | .error _ => .error (.encoding w)
  | .abstract r => .ok r.toInstr

/-- What a step has to do where no request is under way. -/
inductive Fetched where
  /-- Nothing waits on the request port. -/
  | idle
  /-- The request to run, and the state without what was taken. -/
  | run (i : Instr) (s : State)
  /-- R74: the word taken spells no request: why, and the state without what was taken. -/
  | reject (r : RefusalReason) (s : State)
  deriving DecidableEq, Repr

/-- R49: the next request on the port. -/
def fetch (s : State) : Fetched :=
  match s.port with
  | [] => .idle
  | item :: rest =>
    match item.request with
    | .ok i => .run i { s with port := rest }
    | .error r => .reject r { s with port := rest }

/-! ## The request under way -/

/-- What a request sends, where it passes its checks (R161, R164, R165, R190) and makes transport writes at all. -/
def jobOf (s : State) : Instr → Option Job
  | .init => some .init
  | .reset => some .reset
  | .draw src => if src.length = Config.bufSize then some (.flush (.src src) Rect.whole) else none
  | .boundedDraw src x0 y0 x1 y1 =>
    if Rect.valid ⟨x0, y0, x1, y1⟩ && src.length = Config.bufSize then some (.flush (.src src) ⟨x0, y0, x1, y1⟩)
    else none
  | .flush => if s.mode = .buffered then s.fb.map fun m => .flush (.fb m) Rect.whole else none
  | .clear | .setPixel _ _ _ | .intoBuffered => none
  | .bias19 | .bias17 | .segNormal | .segReverse | .comNormal | .comReverse => none
  | .resRatio _ | .setVolume _ | .pwrCtrl2C | .pwrCtrl2E | .pwrCtrl2F | .startLine _ => none
  | .pageAddr _ | .colLo _ | .colHi _ | .displayOn | .displayOff | .swReset => none

/-- R2, R20: a request under way is the one at the head of the request port, where its operands are. -/
def underWay (s : State) : Option Job :=
  match s.port with
  | [] => none
  | item :: _ =>
    match item.request with
    | .ok i => jobOf s i
    | .error _ => none

/-! ## Placing a table word -/

/-- The first of the commands `ks` of INIT that is `i`. -/
def initPlace (ks : List Nat) (i : Instr) : Option (Request × Sequencer) :=
  (ks.find? fun k => decide (initCommands[k]? = some i)).map fun k => (.init, .initCommand k)

/-- A request that makes the write of the wire command `i`, and the position where it is due. There is none for a
command no request emits: DISPLAY_OFF (R118), a volume other than 40 and a start line other than 0 (R7), a parameter
this block does not have (R8), a column of 128 or more (R6), a page of 8 or more. -/
def place (i : Instr) : Option (Request × Sequencer) :=
  match i with
  | .bias19 | .bias17 => initPlace [0] i
  | .segNormal | .segReverse => initPlace [1] i
  | .comNormal | .comReverse => initPlace [2] i
  | .resRatio _ => initPlace [3] i
  | .setVolume _ => initPlace [4] i
  | .pwrCtrl2C | .pwrCtrl2E | .pwrCtrl2F => initPlace [5, 6, 7] i
  | .startLine _ => initPlace [8] i
  | .pageAddr p => if p < Config.pages then some (.init, .flush p .page) else none
  | .colLo c => if c < Config.width then some (.boundedDraw tableSrc c 0 c 0, .flush 0 .colLo) else none
  | .colHi c => if c < Config.width then some (.boundedDraw tableSrc c 0 c 0, .flush 0 .colHi) else none
  | .displayOn => some (.init, .displayOn)
  | .swReset => some (.reset, .swReset)
  | .displayOff => none
  | .init | .reset | .clear | .setPixel _ _ _ | .draw _ | .boundedDraw _ _ _ _ _ | .flush | .intoBuffered => none

/-- The state whose next step runs what the words `c` spell, with what would stop the block taken away: a request at
the head of the request port; a wire command as the write due in a request under way that makes it. Where no request
of the block makes it, the state as it is. -/
def placeCode (c : Code) (s : State) : State :=
  match c with
  | .request w src => { s with port := .word w src :: s.port, seq := none, refused := none, faulted := none }
  | .command bytes =>
    match decodeCommand bytes with
    | .error _ => s
    | .ok i =>
      match place i with
      | none => s
      | some (r, q) => { s with port := .abstract r :: s.port, seq := some q, refused := none, faulted := none }

end Sys2Proof.Machine
end

