-- ==== Sys2Proof/Machine/Resume.lean ====
section
/-! DEFINITION. A request under way, one write a step: what a step does in a state that holds a sequencer state
(R31). -/

namespace Sys2Proof.Machine

/-- R2: the request at the head of the request port has ended. -/
def State.leavePort (s : State) : State := { s with port := s.port.tail }

/-- R31, R49, R222: after the write at position `q` left the state `t`: the next position, or after the last one `Ok`;
where the write failed the request has ended already. -/
def moveOn (j : Job) (q : Sequencer) (t : State) : State :=
  match t.seq with
  | none => t.leavePort
  | some _ =>
    match j.advance q with
    | some q' => { t with seq := some q' }
    | none => (endRequest .ok t).leavePort

/-- The outcome of the write due, moved on. -/
def thenMoveOn (j : Job) (q : Sequencer) : Host.Outcome State Fault Refusal → Host.Outcome State Fault Refusal
  | .next t => .next (moveOn j q t)
  | .fault f => .fault f
  | .refused r => .refused r

/-- R31: one write of the request `j`, which stands at position `q`: a wire command by its meaning, or data. -/
def goOn (j : Job) (q : Sequencer) (s : State) : Host.Outcome State Fault Refusal :=
  thenMoveOn j q
    (match j.due q with
    | .command i => exec i s
    | .data bytes => .next (emitData bytes s).afterWrite)

/-- R31: a sequencer state belongs to the request under way and is one of its positions. -/
def resume (q : Sequencer) (s : State) : Host.Outcome State Fault Refusal :=
  match underWay s with
  | none => .fault .noPosition
  | some j => if q ∈ j.positions then goOn j q s else .fault .noPosition

end Sys2Proof.Machine
end

