-- ==== Sys2Proof/Machine/Step.lean ====
section
/-! DEFINITION. One step: one request from acceptance to its end (R2, R46); in a state that holds a sequencer state,
the next write of the request under way (R31). -/

namespace Sys2Proof.Machine

/-- R30: a block with a mark set is stopped. R31: a request under way goes on before the next is accepted (R2). R250:
with nothing on its request port the block waits, unchanged. Otherwise it runs the next request. -/
def step (s : State) : Host.Outcome State Fault Refusal :=
  match s.refused with
  | some r => .refused (.stopped r)
  | none =>
    match s.faulted with
    | some r => .fault (.stopped r)
    | none =>
      match s.seq with
      | some q => resume q s
      | none =>
        match fetch s with
        | .idle => .next s
        | .run i s' => exec i s'
        | .reject r s' => .next (endRequest (.refused r) s')

/-- `s` with the instruction of a table word placed where the next step takes it (log entry 6). -/
def State.withFetchWord (s : State) (nbits w : Nat) : State :=
  match tableCode nbits w with
  | some c => placeCode c s
  | none => s

end Sys2Proof.Machine
end

