-- ==== Sys2Proof/Machine/Observe.lean ====
section
/-! DEFINITION. The observations the spec defines beside the block: reading a pixel back (R142), the page loop as its
rule writes it (R160), the writes of a region flush, and the trace decoder (R170). The machine uses none of them. -/

namespace Sys2Proof.Machine

/-! ## Pixels -/

/-- R142: `pixel(fb, x, y)`. -/
def pixel (m : Memory) (x y : Nat) : Bool := (m.read (indexOf x y)).getLsbD (bitOf y)

/-! ## The page loop of R160 -/

/-- R160: the body of the loop for one page. -/
def pageBody (source : Source) (r : Rect) (p : Nat) (s : State) : Progress :=
  (emitCommand (Cmd.pageAddr p) s).bind fun s =>
  (emitCommand (Cmd.colLo r.x0) s).bind fun s =>
  (emitCommand (Cmd.colHi r.x0) s).bind fun s =>
  emitData (memRead source (p * Config.width + r.x0) r.columns) s

/-- R160: the loop over the pages in `ps`. -/
def pageLoop (source : Source) (r : Rect) : List Nat → State → Progress
  | [], s => .going s
  | p :: ps, s => (pageBody source r p s).bind (pageLoop source r ps)

/-- R160, R162: the pages a rectangle touches, top to bottom. -/
def Rect.pageList (r : Rect) : List Nat := List.range' r.firstPage r.pageCount

/-! ## Writes -/

/-- A transport write by its kind and its bytes. -/
abbrev Write := WriteKind × List Byte

/-- R160: the four writes of one page, `Cmd[0xB0 | p]`, `Cmd[x0[3:0]]`, `Cmd[0x10 | x0[7:4]]` and the data, the bytes
given by their values. -/
def pageWrites (source : Source) (r : Rect) (p : Nat) : List Write :=
  [(.cmd, [BitVec.ofNat 8 (0xB0 + p)]),
   (.cmd, [BitVec.ofNat 8 (r.x0 % 16)]),
   (.cmd, [BitVec.ofNat 8 (0x10 + r.x0 / 16)]),
   (.data, memRead source (p * Config.width + r.x0) r.columns)]

/-- R160: the writes of a region flush, in order. -/
def flushWrites (source : Source) (r : Rect) : List Write := r.pageList.flatMap (pageWrites source r)

/-- R8: the byte `P_BIAS`. -/
def biasByte : BiasChoice → Byte
  | .oneNinth => 0xA2
  | .oneSeventh => 0xA3

/-- R8: the byte `P_SEG`. -/
def segByte : Direction → Byte
  | .normal => 0xA0
  | .reverse => 0xA1

/-- R8: the byte `P_COM`. -/
def comByte : Direction → Byte
  | .normal => 0xC0
  | .reverse => 0xC8

/-- R8: a byte of `P_PWR`. -/
def stageByte : PowerStage → Byte
  | .stage2C => 0x2C
  | .stage2E => 0x2E
  | .stage2F => 0x2F

/-- R194: the nine command writes INIT begins with, by their bytes. -/
def initFirstWrites : List Write :=
  [(.cmd, [biasByte Config.pBias]), (.cmd, [segByte Config.pSeg]), (.cmd, [comByte Config.pCom]),
   (.cmd, [BitVec.ofNat 8 (0x20 + Config.pRatio.val)]), (.cmd, [0x81, 0x28]),
   (.cmd, [stageByte Config.pPwr0]), (.cmd, [stageByte Config.pPwr1]), (.cmd, [stageByte Config.pPwr2]), (.cmd, [0x40])]

/-- R195: the 42 writes of INIT, in order. -/
def initWrites : List Write := initFirstWrites ++ flushWrites .zero Rect.whole ++ [(.cmd, [0xAF])]

/-- The trace entries of writes that were all answered `ok`. -/
def okEntries (ws : List Write) : List TraceEntry := ws.map fun w => ⟨w.1, w.2, .ok⟩

/-- The state after the writes `ws` were made and all answered `ok`. -/
def State.wrote (s : State) (ws : List Write) : State :=
  { s with trace := s.trace ++ okEntries ws, answers := s.answers.drop ws.length }

/-- R27: the transport answers every one of the writes `ws`, made in order from state `s`, with `ok`. -/
def AnswersOk : List Write → State → Prop
  | [], _ => True
  | w :: ws, s => s.answer w.1 w.2 = .ok ∧ AnswersOk ws (s.record w.1 w.2 .ok)

/-! ## The trace decoder -/

/-- R170: a partial map from (page, column) to a byte, the latest assignment first. -/
abbrev PageMap := List ((Nat × Nat) × Byte)

/-- R170: what the map holds at a page and a column. -/
def PageMap.at (map : PageMap) (page column : Nat) : Option Byte :=
  match map with
  | [] => none
  | (key, b) :: rest => if key = (page, column) then some b else PageMap.at rest page column

/-- R170: the decoder's `pg`, `lo` and `hi`. -/
structure Address where
  pg : Option Nat
  lo : Option Nat
  hi : Option Nat
  deriving DecidableEq, Repr

/-- R170: no address is set. -/
def Address.unset : Address := ⟨none, none, none⟩

/-- R170: the effect of one command on the address. A command write that is no row of R60 is refused (R67). -/
def Address.command (a : Address) (bytes : List Byte) : Option Address :=
  match decodeCommand bytes with
  | .ok (.pageAddr p) => some { a with pg := some p }
  | .ok (.colLo c) => some { a with lo := some c }
  | .ok (.colHi c) => some { a with hi := some (c / 16) }
  | .ok .swReset => some Address.unset
  | .ok _ => some a
  | .error _ => none

/-- R170: the bytes of one data write, from column `c` of page `p` on. -/
def PageMap.store (map : PageMap) (p : Nat) : Nat → List Byte → PageMap
  | _, [] => map
  | c, b :: bytes => PageMap.store (((p, c), b) :: map) p (c + 1) bytes

/-- R170: the decoder's loop. -/
def decodeFrom (a : Address) (map : PageMap) : List TraceEntry → Option PageMap
  | [] => some map
  | ⟨_, _, .err _⟩ :: _ => none
  | ⟨.cmd, bytes, .ok⟩ :: rest =>
    match a.command bytes with
    | some a' => decodeFrom a' map rest
    | none => none
  | ⟨.data, bytes, .ok⟩ :: rest =>
    match a.pg, a.lo, a.hi with
    | some p, some lo, some hi => decodeFrom Address.unset (map.store p (hi * 16 + lo) bytes) rest
    | _, _, _ => none

/-- R170: `decode(trace)`; `none` is REFUSE. -/
def decodeTrace (trace : List TraceEntry) : Option PageMap := decodeFrom Address.unset [] trace

end Sys2Proof.Machine
end

