-- ==== Sys2Proof/Safety.lean ====
section
/-! DEFINITION. The invariant of the block and what counts as a run that has not stopped. -/

namespace Sys2Proof.Machine

/-- R67, R65: what the trace may hold: a command write is one row of R60, a data write is not empty and no longer
than a page row. -/
def entryLegal (e : TraceEntry) : Prop :=
  match e.kind with
  | .cmd => ∃ i, decodeCommand e.bytes = .ok i
  | .data => 1 ≤ e.bytes.length ∧ e.bytes.length ≤ Config.width

/-- What every step keeps. -/
structure State.Inv (s : State) : Prop where
  /-- R23: the framebuffer exists exactly in Buffered mode. -/
  framebuffer : s.fb.isSome = true ↔ s.mode = .buffered
  /-- R23, R24: it is in canonical form, every index within it. -/
  memory : ∀ m, s.fb = some m → m.wf = true
  /-- R31: there is a sequencer state only while a request is under way, and it is one of that request's positions. -/
  position : ∀ q, s.seq = some q → ∃ j, underWay s = some j ∧ q ∈ j.positions
  /-- R60, R65, R67: only listed commands and page-row data have been sent. -/
  trace : ∀ e ∈ s.trace, entryLegal e
  /-- R30: a mark stands with the outcome that set it, so at most one is set. -/
  refusedMark : ∀ r, s.refused = some r → s.response = some (.refused r)
  /-- R30 -/
  faultedMark : ∀ r, s.faulted = some r → s.response = some (.faulted r)

/-- The state after a request that made the writes `ws`, all answered `ok`, and returned `Ok`. -/
def State.completed (s : State) (ws : List Write) : State :=
  { s with
    trace := s.trace ++ okEntries ws, answers := s.answers.drop ws.length, seq := none, rpc := s.rpc + 1,
    response := some .ok }

/-- R222: the state after a request whose writes `us` were answered `ok` and whose next write `w` was answered
`err e`. -/
def State.failedAt (s : State) (us : List Write) (w : Write) (e : TransportError) : State :=
  { s with
    trace := s.trace ++ okEntries us ++ [⟨w.1, w.2, .err e⟩], answers := s.answers.drop (us.length + 1), seq := none,
    rpc := s.rpc + 1, response := some (.transportFailure e) }

/-- R169, R222: of the writes `ws`, made in order from state `s`, those of `us` are answered `ok` and the next one,
`w`, is answered `err e`. -/
def FailsAt (ws : List Write) (s : State) (us : List Write) (w : Write) (e : TransportError) : Prop :=
  (∃ vs, ws = us ++ w :: vs) ∧ AnswersOk us s ∧ (s.wrote us).answer w.1 w.2 = .err e

/-- R223: the state after a request that ends refused for `reason`. -/
def State.refusedFor (s : State) (reason : RefusalReason) : State :=
  { s with refused := some reason, response := some (.refused reason), seq := none }

/-- R224: the state after a request that ends faulted for `reason`. -/
def State.faultedFor (s : State) (reason : FaultReason) : State :=
  { s with faulted := some reason, response := some (.faulted reason), seq := none }

/-- R221: the state after a request that ends `OutOfBounds`. -/
def State.outOfBounds (s : State) : State :=
  { s with rpc := s.rpc + 1, response := some .outOfBounds, seq := none }

/-- R223, R224: the premise of every claim, no refusal and no fault recorded. -/
def State.Running (s : State) : Prop := s.refused = none ∧ s.faulted = none

/-- The machine goes from one state to another in `n` steps, each of which ends in a next state. -/
def Steps : Nat → State → State → Prop
  | 0, s, t => s = t
  | n + 1, s, t => ∃ u, step s = .next u ∧ Steps n u t

end Sys2Proof.Machine
end

