-- ==== Sys2Proof/Certificates/Slice0/Obligations.lean ====
section
/-! DEFINITION. The statements about the block, for the provers. -/

open Sys2Proof Sys2Proof.Machine

/-! ## Encoding -/

/-- Every well-formed instruction has words, and they are read back as the instruction with what its encoding
carries of its operands: all of them, but that a column command carries one nibble of its column (R62). That COL_LO
and COL_HI are read back as the column whose other nibble is zero is the model's choice (log entry 8). -/
def Obligations.EncodedInstructionsDecodeBack : Prop :=
  ∀ i : Instr, i.WellFormed →
    ∃ c, encode i = some c ∧ decode c = .ok i.carried ∧ encode i.carried = some c ∧
      ((∀ k, i ≠ .colLo k) → (∀ k, i ≠ .colHi k) → i.carried = i)

/-- Whatever the decoders accept is the encoding of what they read: no other bytes and no other word spell it. -/
def Obligations.DecodedWordsEncodeBack : Prop :=
  (∀ bytes i, decodeCommand bytes = .ok i → i.WellFormed ∧ encode i = some (.command bytes)) ∧
  (∀ w src i, decodeRequest w src = .ok i →
    i.WellFormed ∧ ∃ src', encode i = some (.request w src') ∧ decodeRequest w src' = .ok i)

/-- R72: a request word is accepted exactly when its opcode is one of the eight and every field its request does not
use is 0. -/
def Obligations.UnusedRequestFieldsMustBeZero : Prop :=
  ∀ (w : Word64) (src : List Byte),
    (∃ i, decodeRequest w src = .ok i) ↔
      ((reqOpc w = 0x01 ∨ reqOpc w = 0x02 ∨ reqOpc w = 0x03 ∨ reqOpc w = 0x05 ∨ reqOpc w = 0x07 ∨ reqOpc w = 0x08) ∧
        w.extractLsb' 8 56 = 0) ∨
      (reqOpc w = 0x04 ∧ w.extractLsb' 24 16 = 0 ∧ w.extractLsb' 41 23 = 0) ∨
      (reqOpc w = 0x06 ∧ w.extractLsb' 40 24 = 0)

/-- R71, R76: which request an accepted word spells, each field read as an unsigned number, with the source buffer
of the port. -/
def Obligations.RequestFieldsAreReadUnsigned : Prop :=
  ∀ (w : Word64) (src : List Byte) (i : Instr), decodeRequest w src = .ok i →
    (reqOpc w = 0x01 → i = .init) ∧ (reqOpc w = 0x02 → i = .reset) ∧ (reqOpc w = 0x03 → i = .clear) ∧
    (reqOpc w = 0x04 → i = .setPixel (w.toNat / 2 ^ 8 % 256) (w.toNat / 2 ^ 16 % 256) (w.getLsbD 40)) ∧
    (reqOpc w = 0x05 → i = .draw src) ∧
    (reqOpc w = 0x06 → i = .boundedDraw src (w.toNat / 2 ^ 8 % 256) (w.toNat / 2 ^ 16 % 256)
      (w.toNat / 2 ^ 24 % 256) (w.toNat / 2 ^ 32 % 256)) ∧
    (reqOpc w = 0x07 → i = .flush) ∧ (reqOpc w = 0x08 → i = .intoBuffered)

/-- R73: the table of request opcodes, and at most one of its rows matches any word. -/
def Obligations.AtMostOneRequestRowMatches : Prop :=
  (requestRows.map fun r => (r.pattern, r.mask)) =
    [(0x0000000000000001, 0xFFFFFFFFFFFFFFFF), (0x0000000000000002, 0xFFFFFFFFFFFFFFFF),
     (0x0000000000000003, 0xFFFFFFFFFFFFFFFF), (0x0000000000000004, 0xFFFFFEFFFF0000FF),
     (0x0000000000000005, 0xFFFFFFFFFFFFFFFF), (0x0000000000000006, 0xFFFFFF00000000FF),
     (0x0000000000000007, 0xFFFFFFFFFFFFFFFF), (0x0000000000000008, 0xFFFFFFFFFFFFFFFF)] ∧
  ((∀ src, requestRows.map (fun r => r.make r.pattern src) =
    [.init, .reset, .clear, .setPixel 0 0 false, .draw src, .boundedDraw src 0 0 0 0, .flush, .intoBuffered])) ∧
  (∀ (w : Word64), ∀ r ∈ requestRows, ∀ r' ∈ requestRows, w &&& r.mask = r.pattern → w &&& r'.mask = r'.pattern →
    r.pattern = r'.pattern) ∧
  (∀ (w : Word64) (src : List Byte) (i : Instr),
    decodeRequest w src = .ok i ↔ ∃ r ∈ requestRows, w &&& r.mask = r.pattern ∧ i = r.make w src)

/-- R67: the one-byte command writes that spell no command are those of the rule's list (0x81 alone is the first half
of a two-byte command), and a SET_VOLUME second byte is never 64 or more. -/
def Obligations.UnlistedWireBytesAreRejected : Prop :=
  (∀ b : Byte, b ≠ 0x81 →
    ((∃ e, decodeCommand [b] = .error e) ↔
      (0x19 ≤ b.toNat ∧ b.toNat ≤ 0x1F) ∨ (0x28 ≤ b.toNat ∧ b.toNat ≤ 0x2B) ∨ b.toNat = 0x2D ∨
      (0x30 ≤ b.toNat ∧ b.toNat ≤ 0x3F) ∨ b.toNat = 0x80 ∨ (0x82 ≤ b.toNat ∧ b.toNat ≤ 0x9F) ∨
      (0xA4 ≤ b.toNat ∧ b.toNat ≤ 0xAD) ∨ (0xB8 ≤ b.toNat ∧ b.toNat ≤ 0xBF) ∨
      (0xC1 ≤ b.toNat ∧ b.toNat ≤ 0xC7) ∨ (0xC9 ≤ b.toNat ∧ b.toNat ≤ 0xE1) ∨
      (0xE3 ≤ b.toNat ∧ b.toNat ≤ 0xFF))) ∧
  (∀ op v : Byte, (∃ i, decodeCommand [op, v] = .ok i) ↔ op = 0x81 ∧ v.toNat ≤ 63) ∧
  (∀ bytes : List Byte, bytes.length ≠ 1 → bytes.length ≠ 2 → ∃ e, decodeCommand bytes = .error e)

/-- Words written out from the spec's encodings, one or more for each family, decode to what they stand for. -/
def Obligations.WrittenOutWordsDecode : Prop :=
  decodeCommand [0b10100010] = .ok .bias19 ∧ decodeCommand [0b11001000] = .ok .comReverse ∧
  decodeCommand [0b00100100] = .ok (.resRatio 4) ∧ decodeCommand [0b10000001, 0b00101000] = .ok (.setVolume 40) ∧
  decodeCommand [0b01111111] = .ok (.startLine 63) ∧ decodeCommand [0b10110011] = .ok (.pageAddr 3) ∧
  decodeRequest 0x0000010000090104 [] = .ok (.setPixel 1 9 true) ∧
  decodeRequest 0x0000000A030A0506 [] = .ok (.boundedDraw [] 5 10 3 10) ∧
  decodeRequest 0x0000000000000008 [] = .ok .intoBuffered ∧
  decodeRequest 0x0000010000000006 [] = .error (.reservedWord 0x0000010000000006)

/-- R75: the six requests that take no source buffer are read alike whatever the port carries. -/
def Obligations.OtherRequestsIgnoreTheSourcePort : Prop :=
  ∀ (w : Word64) (src src' : List Byte) (i : Instr), decodeRequest w src = .ok i →
    (∀ b, i ≠ .draw b) → (∀ b x0 y0 x1 y1, i ≠ .boundedDraw b x0 y0 x1 y1) → decodeRequest w src' = .ok i

/-! ## Wire commands -/

/-- R100, with the bytes of R101 to R106, R109 to R111, R117 and R119: each plain command is one command write of its
one byte, and changes nothing else where the write is answered `ok`. That a command has a meaning by itself, with no
response and no change of `rpc`, is the model's choice (log entry 4). So is the clause on DISPLAY_OFF, whose bytes
alone are R118's: no step runs it (NoStepEmitsAnUnlistedCommand). -/
def Obligations.PlainCommandsWriteTheirByte : Prop :=
  ∀ c ∈ [(Instr.bias19, (0xA2 : Byte)), (.bias17, 0xA3), (.segNormal, 0xA0), (.segReverse, 0xA1), (.comNormal, 0xC0),
      (.comReverse, 0xC8), (.pwrCtrl2C, 0x2C), (.pwrCtrl2E, 0x2E), (.pwrCtrl2F, 0x2F), (.displayOn, 0xAF),
      (.displayOff, 0xAE), (.swReset, 0xE2)],
    ∀ s : State, s.answer .cmd [c.2] = .ok →
      exec c.1 s = .next { s with trace := s.trace ++ [⟨.cmd, [c.2], .ok⟩], answers := s.answers.drop 1 }

/-- R100, with the bytes of R107, R108, R112 to R115: each command with a field in its range is one command write of
its bytes, and changes nothing else where the write is answered `ok`. That a command has a meaning by itself, with
no response and no change of `rpc`, is the model's choice (log entry 4). -/
def Obligations.FieldCommandsWriteTheirField : Prop :=
  ∀ s : State, ∀ n : Nat,
    (n ≤ 7 → s.answer .cmd [BitVec.ofNat 8 (0x20 + n)] = .ok → exec (.resRatio n) s =
      .next { s with
        trace := s.trace ++ [⟨.cmd, [BitVec.ofNat 8 (0x20 + n)], .ok⟩], answers := s.answers.drop 1 }) ∧
    (n ≤ 63 → s.answer .cmd [0x81, BitVec.ofNat 8 n] = .ok → exec (.setVolume n) s =
      .next { s with trace := s.trace ++ [⟨.cmd, [0x81, BitVec.ofNat 8 n], .ok⟩], answers := s.answers.drop 1 }) ∧
    (n ≤ 63 → s.answer .cmd [BitVec.ofNat 8 (0x40 + n)] = .ok → exec (.startLine n) s =
      .next { s with
        trace := s.trace ++ [⟨.cmd, [BitVec.ofNat 8 (0x40 + n)], .ok⟩], answers := s.answers.drop 1 }) ∧
    (n ≤ 7 → s.answer .cmd [BitVec.ofNat 8 (0xB0 + n)] = .ok → exec (.pageAddr n) s =
      .next { s with
        trace := s.trace ++ [⟨.cmd, [BitVec.ofNat 8 (0xB0 + n)], .ok⟩], answers := s.answers.drop 1 }) ∧
    (n ≤ 131 → s.answer .cmd [BitVec.ofNat 8 (n % 16)] = .ok → exec (.colLo n) s =
      .next { s with
        trace := s.trace ++ [⟨.cmd, [BitVec.ofNat 8 (n % 16)], .ok⟩], answers := s.answers.drop 1 }) ∧
    (n ≤ 131 → s.answer .cmd [BitVec.ofNat 8 (0x10 + n / 16)] = .ok → exec (.colHi n) s =
      .next { s with
        trace := s.trace ++ [⟨.cmd, [BitVec.ofNat 8 (0x10 + n / 16)], .ok⟩], answers := s.answers.drop 1 })

/-- R64: how each field stands in its command, and that a field outside its range gives no command. -/
def Obligations.FieldsAreAssembled : Prop :=
  ∀ n : Nat,
    encode (.colLo n) = (if n ≤ 131 then some (.command [BitVec.ofNat 8 (n % 16)]) else none) ∧
    encode (.colHi n) = (if n ≤ 131 then some (.command [BitVec.ofNat 8 (0x10 + n / 16)]) else none) ∧
    encode (.resRatio n) = (if n ≤ 7 then some (.command [BitVec.ofNat 8 (0x20 + n)]) else none) ∧
    encode (.startLine n) = (if n ≤ 63 then some (.command [BitVec.ofNat 8 (0x40 + n)]) else none) ∧
    encode (.pageAddr n) = (if n ≤ 7 then some (.command [BitVec.ofNat 8 (0xB0 + n)]) else none) ∧
    encode (.setVolume n) = (if n ≤ 63 then some (.command [0x81, BitVec.ofNat 8 n]) else none)

/-- R120: a command whose field is out of range is not written; the request ends faulted. That a command has a meaning
by itself is the model's choice (log entry 4). -/
def Obligations.OutOfRangeFieldsFault : Prop :=
  ∀ s : State, ∀ n : Nat,
    (7 < n → exec (.resRatio n) s = .next (s.faultedFor .commandRange) ∧
      exec (.pageAddr n) s = .next (s.faultedFor .commandRange)) ∧
    (63 < n → exec (.setVolume n) s = .next (s.faultedFor .commandRange) ∧
      exec (.startLine n) s = .next (s.faultedFor .commandRange)) ∧
    (131 < n → exec (.colLo n) s = .next (s.faultedFor .commandRange) ∧
      exec (.colHi n) s = .next (s.faultedFor .commandRange))

/-- A wire command whose one write is answered `err` ends what is under way with that error (R100, R222). That a
command has a meaning by itself is the model's choice (log entry 4). -/
def Obligations.FailedCommandEndsTheRequest : Prop :=
  ∀ (i : Instr) (bytes : List Byte) (s : State) (e : TransportError), encode i = some (.command bytes) →
    s.answer .cmd bytes = .err e → exec i s = .next (s.failedAt [] (.cmd, bytes) e)

/-! ## The framebuffer -/

/-- R140 -/
def Obligations.ClearZeroesEveryByte : Prop :=
  (∀ src, decodeRequest 0x0000000000000003 src = .ok .clear) ∧
  (∀ (s : State) (m : Memory), s.mode = .buffered → s.fb = some m →
    ∃ m', exec .clear s = .next { s with fb := some m', rpc := s.rpc + 1, response := some .ok, seq := none } ∧
      m'.wf = true ∧ ∀ i, m'.read i = 0x00) ∧
  (∀ s : State, s.mode = .directWrite → exec .clear s = .next (s.refusedFor .modeGate))

/-- R144 -/
def Obligations.ClearedPixelsAreOff : Prop :=
  ∀ (s : State) (m : Memory), s.mode = .buffered → s.fb = some m →
    ∃ t m', exec .clear s = .next t ∧ t.fb = some m' ∧ ∀ x y, x < 128 → y < 64 → pixel m' x y = false

/-- R141: a valid pixel changes its one byte by the read-modify-write of the rule, an invalid one nothing, and in
DirectWrite the request is refused whatever its operands. -/
def Obligations.SetPixelReplacesOneBit : Prop :=
  (∀ (w : Word64) (src : List Byte), reqOpc w = 0x04 → w.extractLsb' 24 16 = 0 → w.extractLsb' 41 23 = 0 →
    decodeRequest w src = .ok (.setPixel (reqX0 w).toNat (reqY0 w).toNat (w.getLsbD 40))) ∧
  (∀ (s : State) (m : Memory) (x y : Nat) (on : Bool), s.mode = .buffered → s.fb = some m → m.wf = true →
    x < 128 → y < 64 →
    ∃ m', exec (.setPixel x y on) s =
        .next { s with fb := some m', rpc := s.rpc + 1, response := some .ok, seq := none } ∧
      m'.wf = true ∧ y / 8 * 128 + x ≤ 1023 ∧
      m'.read (y / 8 * 128 + x) =
        (m.read (y / 8 * 128 + x) &&& ~~~((1 : Byte) <<< (y % 8))) ||| (BitVec.ofNat 8 on.toNat <<< (y % 8)) ∧
      ∀ a, a ≠ y / 8 * 128 + x → m'.read a = m.read a) ∧
  (∀ (s : State) (x y : Nat) (on : Bool), s.mode = .buffered → (128 ≤ x ∨ 64 ≤ y) →
    exec (.setPixel x y on) s = .next s.outOfBounds) ∧
  (∀ (s : State) (x y : Nat) (on : Bool), s.mode = .directWrite →
    exec (.setPixel x y on) s = .next (s.refusedFor .modeGate))

/-- R143: after SET_PIXEL the pixel reads as written and every other pixel as before, in a state the next SET_PIXEL
can start from; out of bounds no byte changes. -/
def Obligations.SetPixelHasNoCrossTalk : Prop :=
  ∀ (s : State) (m : Memory) (x y : Nat) (v : Bool), s.mode = .buffered → s.fb = some m → m.wf = true →
    (x < 128 → y < 64 →
      ∃ t m', exec (.setPixel x y v) s = .next t ∧ t.mode = .buffered ∧ t.fb = some m' ∧ m'.wf = true ∧
        pixel m' x y = v ∧ ∀ x' y', x' < 128 → y' < 64 → (x', y') ≠ (x, y) → pixel m' x' y' = pixel m x' y') ∧
    (128 ≤ x ∨ 64 ≤ y → ∃ t, exec (.setPixel x y v) s = .next t ∧ t.fb = some m)

/-- R47: a repeated SET_PIXEL, and a repeated CLEAR, leave the framebuffer as the first did. -/
def Obligations.FramebufferRequestsAreIdempotent : Prop :=
  ∀ (s : State) (m : Memory) (i : Instr), s.mode = .buffered → s.fb = some m → m.wf = true →
    (i = .clear ∨ ∃ x y v, i = .setPixel x y v) →
    ∃ t u, exec i s = .next t ∧ exec i t = .next u ∧ u.fb = t.fb

/-- R43: byte `i` and bit `k` hold the pixel `(i mod 128, 8 * (i div 128) + k)` and no other. -/
def Obligations.EachPixelHasItsOwnBit : Prop :=
  (∀ i k, i < 1024 → k < 8 →
    i % 128 < 128 ∧ 8 * (i / 128) + k < 64 ∧
    indexOf (i % 128) (8 * (i / 128) + k) = i ∧ bitOf (8 * (i / 128) + k) = k) ∧
  (∀ x y x' y', x < 128 → y < 64 → x' < 128 → y' < 64 → indexOf x y = indexOf x' y' → bitOf y = bitOf y' →
    x = x' ∧ y = y') ∧
  (∀ x y, x < 128 → y < 64 → indexOf x y < 1024) ∧
  (∀ (m : Memory) i k, i < 1024 → k < 8 → pixel m (i % 128) (8 * (i / 128) + k) = (m.read i).getLsbD k)

/-! ## The region flush -/

/-- R160: the loop is the sequencer state: over a valid rectangle the sequencer's run ends exactly as the rule's page
loop, whatever the transport answers. -/
def Obligations.RegionFlushIsThePageLoop : Prop :=
  ∀ (source : Source) (r : Rect) (s : State), r.x0 < 128 → r.y0 < 64 → r.x1 < 128 → r.y1 < 64 → r.x0 ≤ r.x1 →
    r.y0 ≤ r.y1 →
    (regionFlush source r s).finish =
      (pageLoop source r (List.range' (r.y0 / 8) (r.y1 / 8 + 1 - r.y0 / 8)) s).finish

/-- R169: a failing write leaves the writes before it, marked `ok`, and itself, marked `err`; the sequencer stands at
its page and phase. -/
def Obligations.FailingWriteStandsAtItsPageAndPhase : Prop :=
  ∀ (source : Source) (r : Rect) (s : State) (us : List Write) (w : Write) (e : TransportError),
    r.x0 < 128 → r.y0 < 64 → r.x1 < 128 → r.y1 < 64 → r.x0 ≤ r.x1 → r.y0 ≤ r.y1 →
    FailsAt (flushWrites source r) s us w e →
    ∃ t, regionFlush source r s = .ended (.transportFailure e) t ∧
      t.trace = s.trace ++ okEntries us ++ [⟨w.1, w.2, .err e⟩] ∧
      ∃ phase, t.seq = some (.flush (r.y0 / 8 + us.length / 4) phase) ∧
        (us.length % 4 = 0 → phase = .page) ∧ (us.length % 4 = 1 → phase = .colLo) ∧
        (us.length % 4 = 2 → phase = .colHi) ∧ (us.length % 4 = 3 → phase = .data)

/-- R164: the rectangle, then the length, then the writes of the page loop; the framebuffer is not touched. -/
def Obligations.BoundedDrawSendsTheRectangle : Prop :=
  (∀ (w : Word64) (src : List Byte), reqOpc w = 0x06 → w.extractLsb' 40 24 = 0 →
    decodeRequest w src = .ok (.boundedDraw src (reqX0 w).toNat (reqY0 w).toNat (reqX1 w).toNat (reqY1 w).toNat)) ∧
  ∀ (src : List Byte) (x0 y0 x1 y1 : Nat) (s : State),
    (¬ (x0 < 128 ∧ y0 < 64 ∧ x1 < 128 ∧ y1 < 64 ∧ x0 ≤ x1 ∧ y0 ≤ y1) →
      exec (.boundedDraw src x0 y0 x1 y1) s = .next s.outOfBounds) ∧
    (x0 < 128 → y0 < 64 → x1 < 128 → y1 < 64 → x0 ≤ x1 → y0 ≤ y1 →
      (src.length ≠ 1024 →
        exec (.boundedDraw src x0 y0 x1 y1) s = .next (s.faultedFor (.srcLength src.length))) ∧
      (src.length = 1024 →
        (AnswersOk (flushWrites (.src src) ⟨x0, y0, x1, y1⟩) s →
          exec (.boundedDraw src x0 y0 x1 y1) s = .next (s.completed (flushWrites (.src src) ⟨x0, y0, x1, y1⟩))) ∧
        (∀ us w e, FailsAt (flushWrites (.src src) ⟨x0, y0, x1, y1⟩) s us w e →
          exec (.boundedDraw src x0 y0 x1 y1) s = .next (s.failedAt us w e))))

/-- R165: the length, then the writes of the whole display; the framebuffer is not touched. -/
def Obligations.DrawSendsTheWholeDisplay : Prop :=
  (∀ src, decodeRequest 0x0000000000000005 src = .ok (.draw src)) ∧
  ∀ (src : List Byte) (s : State),
    (src.length ≠ 1024 → exec (.draw src) s = .next s.outOfBounds) ∧
    (src.length = 1024 →
      (AnswersOk (flushWrites (.src src) ⟨0, 0, 127, 63⟩) s →
        exec (.draw src) s = .next (s.completed (flushWrites (.src src) ⟨0, 0, 127, 63⟩))) ∧
      (∀ us w e, FailsAt (flushWrites (.src src) ⟨0, 0, 127, 63⟩) s us w e →
        exec (.draw src) s = .next (s.failedAt us w e)))

/-- R166: the whole framebuffer is sent and not changed; in DirectWrite the request is refused. -/
def Obligations.FlushSendsTheFramebuffer : Prop :=
  (∀ src, decodeRequest 0x0000000000000007 src = .ok .flush) ∧
  (∀ s : State, s.mode = .directWrite → exec .flush s = .next (s.refusedFor .modeGate)) ∧
  ∀ (s : State) (m : Memory), s.mode = .buffered → s.fb = some m →
    (AnswersOk (flushWrites (.fb m) ⟨0, 0, 127, 63⟩) s →
      exec .flush s = .next (s.completed (flushWrites (.fb m) ⟨0, 0, 127, 63⟩))) ∧
    (∀ us w e, FailsAt (flushWrites (.fb m) ⟨0, 0, 127, 63⟩) s us w e →
      exec .flush s = .next (s.failedAt us w e))

/-- R167: how many writes of each kind, and how long, a BOUNDED_DRAW with every write answered `ok` adds to the
trace, with DRAW and FLUSH over the whole display. -/
def Obligations.WriteCountsOfARegionFlush : Prop :=
  (∀ (src : List Byte) (x0 y0 x1 y1 : Nat) (s : State), src.length = 1024 → x0 < 128 → y0 < 64 → x1 < 128 → y1 < 64 →
    x0 ≤ x1 → y0 ≤ y1 → AnswersOk (flushWrites (.src src) ⟨x0, y0, x1, y1⟩) s →
    ∃ t es, exec (.boundedDraw src x0 y0 x1 y1) s = .next t ∧ t.trace = s.trace ++ es ∧
      1 ≤ y1 / 8 - y0 / 8 + 1 ∧ y1 / 8 - y0 / 8 + 1 ≤ 8 ∧
      es.length = 4 * (y1 / 8 - y0 / 8 + 1) ∧
      (es.filter (fun e => e.kind = .cmd)).length = 3 * (y1 / 8 - y0 / 8 + 1) ∧
      (es.filter (fun e => e.kind = .data)).length = y1 / 8 - y0 / 8 + 1 ∧
      (∀ e ∈ es, e.kind = .cmd → e.bytes.length = 1) ∧
      (∀ e ∈ es, e.kind = .data → e.bytes.length = x1 - x0 + 1)) ∧
  (∀ (src : List Byte) (m : Memory) (i : Instr) (s : State),
    ((i = .draw src ∧ src.length = 1024 ∧ AnswersOk (flushWrites (.src src) ⟨0, 0, 127, 63⟩) s) ∨
      (i = .flush ∧ s.mode = .buffered ∧ s.fb = some m ∧ AnswersOk (flushWrites (.fb m) ⟨0, 0, 127, 63⟩) s)) →
    ∃ t es, exec i s = .next t ∧ t.trace = s.trace ++ es ∧
      (es.filter (fun e => e.kind = .cmd)).length = 24 ∧ (es.filter (fun e => e.kind = .data)).length = 8 ∧
      (∀ e ∈ es, e.kind = .data → e.bytes.length = 128))

/-- R168: a rectangle within one page row is three commands and one data write, never more. -/
def Obligations.OnePageRowIsThreeCommandsAndOneDataWrite : Prop :=
  ∀ (src : List Byte) (x0 y0 x1 y1 p : Nat) (s : State), src.length = 1024 → x0 ≤ x1 → x1 < 128 →
    p < 8 → 8 * p ≤ y0 → y0 ≤ y1 → y1 < 8 * p + 8 → AnswersOk (flushWrites (.src src) ⟨x0, y0, x1, y1⟩) s →
    ∃ t, exec (.boundedDraw src x0 y0 x1 y1) s = .next t ∧
      t.trace = s.trace ++
        [⟨.cmd, [BitVec.ofNat 8 (0xB0 + p)], .ok⟩, ⟨.cmd, [BitVec.ofNat 8 (x0 % 16)], .ok⟩,
         ⟨.cmd, [BitVec.ofNat 8 (0x10 + x0 / 16)], .ok⟩,
         ⟨.data, (src.drop (128 * p + x0)).take (x1 - x0 + 1), .ok⟩]

/-- R79: DRAW of a buffer of 1024 bytes is BOUNDED_DRAW of the whole display, whatever the transport answers. -/
def Obligations.DrawIsTheWholeBoundedDraw : Prop :=
  ∀ (src : List Byte) (s : State), src.length = 1024 → exec (.draw src) s = exec (.boundedDraw src 0 0 127 63) s

/-- R171: the trace a request adds, with every write answered `ok`, decodes to exactly the bytes of the rectangle. -/
def Obligations.TraceDecodesToTheBufferSent : Prop :=
  (∀ (src : List Byte) (s : State), src.length = 1024 → AnswersOk (flushWrites (.src src) ⟨0, 0, 127, 63⟩) s →
    ∃ t map, exec (.draw src) s = .next t ∧ decodeTrace (t.trace.drop s.trace.length) = some map ∧
      ∀ p c, map.at p c = if p ≤ 7 ∧ c ≤ 127 then src[p * 128 + c]? else none) ∧
  (∀ (src : List Byte) (x0 y0 x1 y1 : Nat) (s : State), src.length = 1024 → x0 < 128 → y0 < 64 → x1 < 128 → y1 < 64 →
    x0 ≤ x1 → y0 ≤ y1 → AnswersOk (flushWrites (.src src) ⟨x0, y0, x1, y1⟩) s →
    ∃ t map, exec (.boundedDraw src x0 y0 x1 y1) s = .next t ∧
      decodeTrace (t.trace.drop s.trace.length) = some map ∧
      ∀ p c, map.at p c =
        if y0 / 8 ≤ p ∧ p ≤ y1 / 8 ∧ x0 ≤ c ∧ c ≤ x1 then src[p * 128 + c]? else none) ∧
  (∀ (m : Memory) (s : State), s.mode = .buffered → s.fb = some m →
    AnswersOk (flushWrites (.fb m) ⟨0, 0, 127, 63⟩) s →
    ∃ t map, exec .flush s = .next t ∧ decodeTrace (t.trace.drop s.trace.length) = some map ∧
      ∀ p c, map.at p c = if p ≤ 7 ∧ c ≤ 127 then some (m.read (p * 128 + c)) else none)

/-- R172: after a FLUSH that ended in a transport failure, a FLUSH with every write answered `ok` sends the same bytes
as an unfailed run, and its own trace decodes to the framebuffer. -/
def Obligations.RetryAfterFailureSendsTheSameBytes : Prop :=
  ∀ (s : State) (m : Memory) (us : List Write) (w : Write) (e : TransportError), s.mode = .buffered →
    s.fb = some m → FailsAt (flushWrites (.fb m) ⟨0, 0, 127, 63⟩) s us w e →
    ∃ t, exec .flush s = .next t ∧ t.response = some (.transportFailure e) ∧ t.fb = some m ∧
      (AnswersOk (flushWrites (.fb m) ⟨0, 0, 127, 63⟩) t →
        ∃ u es map, exec .flush t = .next u ∧ u.trace = t.trace ++ es ∧
          es.map (fun x => (x.kind, x.bytes)) = flushWrites (.fb m) ⟨0, 0, 127, 63⟩ ∧
          decodeTrace es = some map ∧
          ∀ p c, map.at p c = if p ≤ 7 ∧ c ≤ 127 then some (m.read (p * 128 + c)) else none)

/-- R172: two runs of a region-flush request with the same operands and the same source, each with every write
answered `ok`, add the same writes to the trace. -/
def Obligations.RepeatedFlushesEmitTheSameWrites : Prop :=
  ∀ (i : Instr) (s s' t t' : State),
    (i = .flush ∨ (∃ src, i = .draw src) ∨ ∃ src x0 y0 x1 y1, i = .boundedDraw src x0 y0 x1 y1) →
    s'.mode = s.mode → s'.fb = s.fb → exec i s = .next t → exec i s' = .next t' →
    t.response = some .ok → t'.response = some .ok →
    ∃ es, t.trace = s.trace ++ es ∧ t'.trace = s'.trace ++ es

/-! ## Driver control -/

/-- R192 -/
def Obligations.IntoBufferedMakesAZeroedFramebuffer : Prop :=
  (∀ src, decodeRequest 0x0000000000000008 src = .ok .intoBuffered) ∧
  (∀ s : State, s.mode = .directWrite →
    ∃ m, exec .intoBuffered s =
        .next { s with mode := .buffered, fb := some m, rpc := s.rpc + 1, response := some .ok, seq := none } ∧
      m.wf = true ∧ ∀ i, m.read i = 0x00) ∧
  (∀ s : State, s.mode = .buffered → exec .intoBuffered s = .next (s.refusedFor .modeGate))

/-- R195: the 42 writes of INIT in order, for every choice of the open parameters, in both modes; at a write answered
`err` INIT ends. -/
def Obligations.InitEmitsItsFixedSequence : Prop :=
  (∀ src, decodeRequest 0x0000000000000001 src = .ok .init) ∧
  ∀ s : State,
    (AnswersOk initWrites s → exec .init s = .next (s.completed initWrites)) ∧
    (∀ us w e, FailsAt initWrites s us w e → exec .init s = .next (s.failedAt us w e)) ∧
    initWrites.length = 42 ∧ (initWrites.filter (fun w => w.1 = .cmd)).length = 34 ∧
    (initWrites.filter (fun w => w.1 = .data)) = List.replicate 8 (.data, List.replicate 128 0x00)

/-- R194: the first nine writes of INIT, the same in every run, each parameter one of the opcodes R8 admits. -/
def Obligations.InitBeginsWithNineCommands : Prop :=
  ∃ pBias pSeg pCom pRatio pPwr0 pPwr1 pPwr2 : Byte,
    (pBias = 0xA2 ∨ pBias = 0xA3) ∧ (pSeg = 0xA0 ∨ pSeg = 0xA1) ∧ (pCom = 0xC0 ∨ pCom = 0xC8) ∧
    (0x20 ≤ pRatio.toNat ∧ pRatio.toNat ≤ 0x27) ∧
    (∀ b ∈ [pPwr0, pPwr1, pPwr2], b = 0x2C ∨ b = 0x2E ∨ b = (0x2F : Byte)) ∧
    ∀ s : State, AnswersOk initWrites s →
      ∃ t rest, exec .init s = .next t ∧ t.trace = s.trace ++
        [⟨.cmd, [pBias], .ok⟩, ⟨.cmd, [pSeg], .ok⟩, ⟨.cmd, [pCom], .ok⟩, ⟨.cmd, [pRatio], .ok⟩,
         ⟨.cmd, [0x81, 0x28], .ok⟩, ⟨.cmd, [pPwr0], .ok⟩, ⟨.cmd, [pPwr1], .ok⟩, ⟨.cmd, [pPwr2], .ok⟩,
         ⟨.cmd, [0x40], .ok⟩] ++ rest

/-- R197: one write; mode and framebuffer stay. -/
def Obligations.ResetEmitsOneCommand : Prop :=
  (∀ src, decodeRequest 0x0000000000000002 src = .ok .reset) ∧
  ∀ s : State,
    (s.answer .cmd [0xE2] = .ok → exec .reset s = .next (s.completed [(.cmd, [0xE2])])) ∧
    (∀ e, s.answer .cmd [0xE2] = .err e → exec .reset s = .next (s.failedAt [] (.cmd, [0xE2]) e))

/-! ## The machine -/

/-- R190, R191: the mode gate. In the modes the table refuses, a request ends refused with nothing else changed, before
every other check; in the modes it accepts, no request ends refused. -/
def Obligations.ModeGateDecidesWhichRequestsRun : Prop :=
  ∀ (i : Instr) (s : State), i.isRequest = true →
    (((i = .clear ∨ i = .flush ∨ ∃ x y v, i = .setPixel x y v) ∧ s.mode = .directWrite) ∨
        (i = .intoBuffered ∧ s.mode = .buffered) →
      exec i s = .next (s.refusedFor .modeGate)) ∧
    (¬ (((i = .clear ∨ i = .flush ∨ ∃ x y v, i = .setPixel x y v) ∧ s.mode = .directWrite) ∨
        (i = .intoBuffered ∧ s.mode = .buffered)) →
      ∀ t, exec i s = .next t → t.refused = s.refused ∧ ∀ r, t.response ≠ some (.refused r))

/-- R220: the numeric code of every outcome; the codes up to 2 are the outcomes that complete a request (R29). -/
def Obligations.OutcomesHaveTheirCodes : Prop :=
  Response.code .ok = 0 ∧ Response.code .outOfBounds = 1 ∧ (∀ e, Response.code (.transportFailure e) = 2) ∧
  Response.code (.refused .modeGate) = 3 ∧ (∀ w, Response.code (.refused (.encoding w)) = 4) ∧
  (∀ n, Response.code (.faulted (.srcLength n)) = 5) ∧ Response.code (.faulted .commandRange) = 6 ∧
  ∀ r : Response, r.completes = true ↔ r.code ≤ 2

/-- In every state of the invariant each instruction ends in a next state: there is always a framebuffer where one is
needed. That every write is answered, so that every request ends (R258), rests on log entry 20; that a wire command
has a meaning by itself is log entry 4. -/
def Obligations.EveryInstructionEndsInANextState : Prop :=
  ∀ (i : Instr) (s : State), s.Inv → ∃ t, exec i s = .next t

/-- The invariant is kept by every step. -/
def Obligations.StepKeepsTheInvariant : Prop :=
  ∀ s t : State, s.Inv → step s = .next t → t.Inv

/-- The state after power-on meets the invariant. -/
def Obligations.PowerOnStateMeetsTheInvariant : Prop := State.reset.Inv

/-- R33: the state after power-on, the framebuffer on entry to Buffered mode, and that the RESET request leaves all of
it but the trace and `rpc`. -/
def Obligations.PowerOnState : Prop :=
  State.reset.mode = .directWrite ∧ State.reset.mode.bit = 0 ∧ State.reset.fb = none ∧ State.reset.trace = [] ∧
  State.reset.rpc = 0 ∧ State.reset.refusedBit = false ∧ State.reset.faultedBit = false ∧ State.reset.seq = none ∧
  (∃ t m, exec .intoBuffered State.reset = .next t ∧ t.fb = some m ∧ ∀ i, m.read i = 0x00) ∧
  ∀ s : State, ∃ t, exec .reset s = .next t ∧ t.mode = s.mode ∧ t.fb = s.fb ∧ t.refused = s.refused ∧
    t.faulted = s.faulted ∧ t.seq = none

/-- R28, R49: a step only appends to the trace, and it makes a further write only after one answered `ok`. -/
def Obligations.TraceIsAppendOnly : Prop :=
  ∀ s t : State, step s = .next t → ∃ es, t.trace = s.trace ++ es ∧ ∀ e ∈ es.dropLast, e.answer = .ok

/-- R22: INTO_BUFFERED alone writes the mode, from DirectWrite to Buffered; once Buffered the block stays so. -/
def Obligations.ModeIsOneWay : Prop :=
  (∀ (i : Instr) (s t : State), exec i s = .next t →
    t.mode = s.mode ∨ (i = .intoBuffered ∧ s.mode = .directWrite ∧ t.mode = .buffered)) ∧
  (∀ s t : State, step s = .next t → s.mode = .buffered → t.mode = .buffered)

/-- R23: only CLEAR, SET_PIXEL and INTO_BUFFERED write the framebuffer. -/
def Obligations.OnlyThreeRequestsWriteTheFramebuffer : Prop :=
  ∀ (i : Instr) (s t : State), exec i s = .next t → t.fb ≠ s.fb →
    i = .clear ∨ i = .intoBuffered ∨ ∃ x y v, i = .setPixel x y v

/-- R23: INIT, RESET, DRAW and BOUNDED_DRAW neither read nor write the framebuffer: with another framebuffer they do
the same and leave that one. -/
def Obligations.CallerBufferRequestsDoNotReadTheFramebuffer : Prop :=
  ∀ (i : Instr) (s : State) (f : Option Memory),
    (i = .init ∨ i = .reset ∨ (∃ src, i = .draw src) ∨ ∃ src x0 y0 x1 y1, i = .boundedDraw src x0 y0 x1 y1) →
    ∃ t, exec i s = .next t ∧ t.fb = s.fb ∧ exec i { s with fb := f } = .next { t with fb := f }

/-- The transport's answers do not reach the block's mode and framebuffer (R225). -/
def Obligations.TransportDoesNotReachTheFramebuffer : Prop :=
  ∀ (i : Instr) (s t : State) (other : List Answer), exec i s = .next t →
    ∃ u, exec i { s with answers := other } = .next u ∧ u.mode = t.mode ∧ u.fb = t.fb

/-- R29: a request that ends `Ok`, `OutOfBounds` or `TransportFailure` advances `rpc` by one, one that ends refused or
faulted leaves it and stops the block. -/
def Obligations.RpcCountsCompletedRequests : Prop :=
  State.reset.rpc = 0 ∧
  ∀ (i : Instr) (s t : State), i.isRequest = true → exec i s = .next t →
    ((t.response = some .ok ∨ t.response = some .outOfBounds ∨ ∃ e, t.response = some (.transportFailure e)) ∧
      t.rpc = s.rpc + 1) ∨
    (((∃ r, t.response = some (.refused r) ∧ t.refused = some r) ∨
        ∃ r, t.response = some (.faulted r) ∧ t.faulted = some r) ∧
      t.rpc = s.rpc ∧ ∀ u, step t ≠ .next u)

/-- R30: the marks are clear at reset, set with their reason by the outcome that sets them, cleared by no instruction,
and while one is set the block runs nothing. That a stopped step answers a refusal or a fault, the refusal where both
marks are set, is log entry 10; that a block with no mark always has a next state rests on log entries 12 (waiting)
and 20 (every write is answered). -/
def Obligations.MarkedBlockIsStopped : Prop :=
  State.reset.refused = none ∧ State.reset.faulted = none ∧
  (∀ (i : Instr) (s t : State), i.isRequest = true → exec i s = .next t →
    (∀ r, t.response = some (.refused r) → t.refused = some r) ∧
    (∀ r, t.response = some (.faulted r) → t.faulted = some r)) ∧
  (∀ (i : Instr) (s t : State), exec i s = .next t →
    (s.refusedBit = true → t.refusedBit = true) ∧ (s.faultedBit = true → t.faultedBit = true)) ∧
  (∀ (s : State) (r : RefusalReason), s.refused = some r → step s = .refused (.stopped r)) ∧
  (∀ (s : State) (r : FaultReason), s.refused = none → s.faulted = some r → step s = .fault (.stopped r)) ∧
  (∀ s : State, s.Inv → s.Running → ∃ t, step s = .next t)

/-- R221: when a request ends `OutOfBounds`, and that nothing but `rpc` changes then. -/
def Obligations.OutOfBoundsMakesNoWrite : Prop :=
  (∀ (s : State) (x y : Nat) (v : Bool), s.mode = .buffered → (128 ≤ x ∨ 64 ≤ y) →
    exec (.setPixel x y v) s = .next s.outOfBounds) ∧
  (∀ (s : State) (src : List Byte) (x0 y0 x1 y1 : Nat),
    ¬ (x0 < 128 ∧ y0 < 64 ∧ x1 < 128 ∧ y1 < 64 ∧ x0 ≤ x1 ∧ y0 ≤ y1) →
    exec (.boundedDraw src x0 y0 x1 y1) s = .next s.outOfBounds) ∧
  (∀ (s : State) (src : List Byte), src.length ≠ 1024 → exec (.draw src) s = .next s.outOfBounds) ∧
  ∀ (i : Instr) (s t : State), i.isRequest = true → exec i s = .next t → t.response = some .outOfBounds →
    t = s.outOfBounds ∧
    ((∃ x y v, i = .setPixel x y v ∧ (128 ≤ x ∨ 64 ≤ y)) ∨
      (∃ src x0 y0 x1 y1, i = .boundedDraw src x0 y0 x1 y1 ∧
        ¬ (x0 < 128 ∧ y0 < 64 ∧ x1 < 128 ∧ y1 < 64 ∧ x0 ≤ x1 ∧ y0 ≤ y1)) ∨
      ∃ src, i = .draw src ∧ src.length ≠ 1024)

/-- R66, R67, R118: what a request adds to the trace: listed commands, two bytes where the first is 0x81 and one byte
otherwise, never DISPLAY_OFF and never a column address of 128 or more (R6), and data writes that are not empty (R65). -/
def Obligations.RequestsEmitOnlyListedCommands : Prop :=
  ∀ (i : Instr) (s t : State), i.isRequest = true → exec i s = .next t →
    ∃ es, t.trace = s.trace ++ es ∧ ∀ e ∈ es,
      (e.kind = .cmd →
        (∃ c, decodeCommand e.bytes = .ok c) ∧ e.bytes.length = (if e.bytes.head? = some 0x81 then 2 else 1) ∧
          e.bytes ≠ [0xAE] ∧ e.bytes ≠ [0x18]) ∧
      (e.kind = .data → 1 ≤ e.bytes.length ∧ e.bytes.length ≤ 128)

/-- R222: a transport failure ends the request at the failing write, with the transport's own error. -/
def Obligations.TransportFailureIsTheLastEntry : Prop :=
  ∀ (i : Instr) (s t : State) (e : TransportError), i.isRequest = true → exec i s = .next t →
    t.response = some (.transportFailure e) →
    (∃ us w, AnswersOk us s ∧ (s.wrote us).answer w.1 w.2 = .err e ∧ t = s.failedAt us w e) ∧
    (i = .init ∨ i = .reset ∨ i = .flush ∨ (∃ src, i = .draw src) ∨
      ∃ src x0 y0 x1 y1, i = .boundedDraw src x0 y0 x1 y1)

/-- R224: a fault of a request leaves everything but its mark, and the one request that can fault is BOUNDED_DRAW with
a valid rectangle and a source buffer of the wrong length. -/
def Obligations.FaultedRequestsChangeOnlyTheMark : Prop :=
  ∀ (i : Instr) (s t : State) (r : FaultReason), i.isRequest = true → exec i s = .next t →
    t.response = some (.faulted r) →
    t = s.faultedFor r ∧ (∀ u, step t ≠ .next u) ∧
    ∃ src x0 y0 x1 y1, i = .boundedDraw src x0 y0 x1 y1 ∧
      (x0 < 128 ∧ y0 < 64 ∧ x1 < 128 ∧ y1 < 64 ∧ x0 ≤ x1 ∧ y0 ≤ y1) ∧ src.length ≠ 1024 ∧
      r = .srcLength src.length

/-- A step runs the instruction its words decode to: with no request under way a request word or an abstract request
from the port, in the state without what was taken. Where a request is under way (R31) and the write due at its
position is a wire command, the step runs that command's meaning and goes on to the next position, or ends the request
after its last write, or leaves it where the command has ended it. That a request under way goes on one write a step,
and that a wire command's meaning is what it runs, is the model's choice (log entries 13 and 4). -/
def Obligations.StepRunsTheDecodedInstruction : Prop :=
  ∀ (s : State), s.Running →
    (∀ w src rest i, s.seq = none → s.port = .word w src :: rest → decodeRequest w src = .ok i →
      step s = exec i { s with port := rest }) ∧
    (∀ r rest, s.seq = none → s.port = .abstract r :: rest → step s = exec r.toInstr { s with port := rest }) ∧
    (∀ q j i, s.seq = some q → underWay s = some j → q ∈ j.positions → j.due q = .command i →
      ∃ t, exec i s = .next t ∧
        (t.seq = none → step s = .next { t with port := t.port.tail }) ∧
        (∀ q', t.seq ≠ none → j.advance q = some q' → step s = .next { t with seq := some q' }) ∧
        (t.seq ≠ none → j.advance q = none → step s = .next { endRequest .ok t with port := t.port.tail }))

/-- R2, R31: the writes of a request made one a step from its first position on end in the state that the request run
whole ends in, after as many steps as there are writes, whatever the transport answers. That the model has both is
log entry 13. -/
def Obligations.WriteByWriteIsTheWholeRequest : Prop :=
  ∀ (s : State) (j : Job) (q : Sequencer), s.Running → underWay s = some j → j.positions.head? = some q →
    ∃ t n, step { s with seq := none } = .next t ∧ Steps n { s with seq := some q } t ∧ n ≤ j.positions.length ∧
      t.trace.length = s.trace.length + n

/-- R118, R6, R66, R67: of any state, what a step adds to the trace: listed commands, two bytes where the first is
0x81 and one byte otherwise, never DISPLAY_OFF and never a column address of 128 or more, and data writes of 1 to 128
bytes (R65). -/
def Obligations.NoStepEmitsAnUnlistedCommand : Prop :=
  ∀ s t : State, step s = .next t →
    ∃ es, t.trace = s.trace ++ es ∧ ∀ e ∈ es,
      (e.kind = .cmd →
        (∃ c, decodeCommand e.bytes = .ok c) ∧ e.bytes.length = (if e.bytes.head? = some 0x81 then 2 else 1) ∧
          e.bytes ≠ [0xAE] ∧ e.bytes ≠ [0x18]) ∧
      (e.kind = .data → 1 ≤ e.bytes.length ∧ e.bytes.length ≤ 128)

/-- R3: of any state, a command other than the page and column addresses is added to the trace by a step of INIT or
RESET alone: the request at the head of the request port. -/
def Obligations.OtherCommandsComeFromInitAndReset : Prop :=
  ∀ s t : State, step s = .next t →
    ∃ es, t.trace = s.trace ++ es ∧ ∀ e ∈ es, e.kind = .cmd →
      (∃ n, decodeCommand e.bytes = .ok (.pageAddr n) ∨ decodeCommand e.bytes = .ok (.colLo n) ∨
        decodeCommand e.bytes = .ok (.colHi n)) ∨
      ∃ item rest, s.port = item :: rest ∧ (item.request = .ok .init ∨ item.request = .ok .reset)

/-- R74: a reserved request word is refused, with no change of state other than the mark and what was taken from the
port. -/
def Obligations.ReservedWordIsRefused : Prop :=
  ∀ (s : State) (w : Word64) (src : List Byte) (rest : List PortItem), s.Running → s.seq = none →
    s.port = .word w src :: rest →
    ¬ (((reqOpc w = 0x01 ∨ reqOpc w = 0x02 ∨ reqOpc w = 0x03 ∨ reqOpc w = 0x05 ∨ reqOpc w = 0x07 ∨ reqOpc w = 0x08) ∧
        w.extractLsb' 8 56 = 0) ∨
      (reqOpc w = 0x04 ∧ w.extractLsb' 24 16 = 0 ∧ w.extractLsb' 41 23 = 0) ∨
      (reqOpc w = 0x06 ∧ w.extractLsb' 40 24 = 0)) →
    step s = .next (({ s with port := rest } : State).refusedFor (.encoding w))

/-- R250: with no request under way and nothing on its port the block waits and emits nothing. That the port is empty at
reset is log entry 18, that a step then answers the same state log entry 12. -/
def Obligations.BlockWaitsForItsFirstRequest : Prop :=
  (∀ s : State, s.Running → s.seq = none → s.port = [] → step s = .next s) ∧
  State.reset.Running ∧ State.reset.seq = none ∧ State.reset.port = [] ∧ State.reset.trace = []

/-- A table word placed by `withFetchWord` is what the next step runs: a request in the state with no mark and no
request under way, a wire command as the write due in a request under way that makes it; a wire command no request of
the block makes is not placed (log entry 6). -/
def Obligations.PlacedTableWordRuns : Prop :=
  ∀ (s : State) (nbits w : Nat) (i : Instr), decodeTableWord nbits w = some i →
    (i.isRequest = true →
      step (s.withFetchWord nbits w) = exec i { s with seq := none, refused := none, faulted := none }) ∧
    (∀ r q, place i = some (r, q) →
      s.withFetchWord nbits w =
        { s with port := .abstract r :: s.port, seq := some q, refused := none, faulted := none } ∧
      ∃ j t, underWay (s.withFetchWord nbits w) = some j ∧ q ∈ j.positions ∧ j.due q = .command i ∧
        exec i (s.withFetchWord nbits w) = .next t ∧ step (s.withFetchWord nbits w) = .next (moveOn j q t)) ∧
    (i.isRequest = false → place i = none → s.withFetchWord nbits w = s)
end

