-- ==== Sys2Proof/Laws/Decode.lean ====
section
/-! SUPPORT. The rows of the request table said by the fields of the word, and the fields of an encoded word. -/

namespace Sys2Proof

/-! ## A row's test, bit by bit -/

theorem and_mask_iff (w m p : Word64) :
    w &&& m = p ↔ ∀ i : Fin 64, (w.getLsbD i && m.getLsbD i) = p.getLsbD i := by
  constructor
  · rintro rfl i; simp
  · intro h; apply BitVec.eq_of_getLsbD_eq; intro i hi; simpa using h ⟨i, hi⟩

theorem extract_eq_iff (w : Word64) (a n : Nat) (p : BitVec n) :
    w.extractLsb' a n = p ↔ ∀ i : Fin n, w.getLsbD (a + i) = p.getLsbD i := by
  constructor
  · rintro rfl i; simp
  · intro h; apply BitVec.eq_of_getLsbD_eq; intro i hi
    simpa [BitVec.getLsbD_extractLsb', hi] using h ⟨i, hi⟩

/-! ## The rows of R73 by the fields of R71 -/

/-- The test of a row that fixes the whole word to an opcode. -/
theorem opcode_spells (w : Word64) (n : Byte) : w &&& 0xFFFFFFFFFFFFFFFF = n.zeroExtend 64 ↔
    reqOpc w = n ∧ w.extractLsb' 8 56 = 0 := by
  simp only [and_mask_iff, reqOpc, extract_eq_iff, Fin.forall_fin_succ, Fin.forall_fin_zero]
  simp [and_assoc]

theorem init_spells (w : Word64) : w &&& 0xFFFFFFFFFFFFFFFF = 0x0000000000000001 ↔
    reqOpc w = 0x01 ∧ w.extractLsb' 8 56 = 0 := opcode_spells w 0x01

theorem reset_spells (w : Word64) : w &&& 0xFFFFFFFFFFFFFFFF = 0x0000000000000002 ↔
    reqOpc w = 0x02 ∧ w.extractLsb' 8 56 = 0 := opcode_spells w 0x02

theorem clear_spells (w : Word64) : w &&& 0xFFFFFFFFFFFFFFFF = 0x0000000000000003 ↔
    reqOpc w = 0x03 ∧ w.extractLsb' 8 56 = 0 := opcode_spells w 0x03

theorem draw_spells (w : Word64) : w &&& 0xFFFFFFFFFFFFFFFF = 0x0000000000000005 ↔
    reqOpc w = 0x05 ∧ w.extractLsb' 8 56 = 0 := opcode_spells w 0x05

theorem flush_spells (w : Word64) : w &&& 0xFFFFFFFFFFFFFFFF = 0x0000000000000007 ↔
    reqOpc w = 0x07 ∧ w.extractLsb' 8 56 = 0 := opcode_spells w 0x07

theorem intoBuffered_spells (w : Word64) : w &&& 0xFFFFFFFFFFFFFFFF = 0x0000000000000008 ↔
    reqOpc w = 0x08 ∧ w.extractLsb' 8 56 = 0 := opcode_spells w 0x08

theorem setPixel_spells (w : Word64) : w &&& 0xFFFFFEFFFF0000FF = 0x0000000000000004 ↔
    reqOpc w = 0x04 ∧ w.extractLsb' 24 16 = 0 ∧ w.extractLsb' 41 23 = 0 := by
  simp only [and_mask_iff, reqOpc, extract_eq_iff, Fin.forall_fin_succ, Fin.forall_fin_zero]
  simp [and_assoc]

theorem boundedDraw_spells (w : Word64) : w &&& 0xFFFFFF00000000FF = 0x0000000000000006 ↔
    reqOpc w = 0x06 ∧ w.extractLsb' 40 24 = 0 := by
  simp only [and_mask_iff, reqOpc, extract_eq_iff, Fin.forall_fin_succ, Fin.forall_fin_zero]
  simp [and_assoc]

/-- The request decoder, said by the fields: the rows in order, each with the fields that must be 0. -/
theorem decodeRequest_eq (w : Word64) (src : List Byte) :
    decodeRequest w src =
      if reqOpc w = 0x01 ∧ w.extractLsb' 8 56 = 0 then .ok .init
      else if reqOpc w = 0x02 ∧ w.extractLsb' 8 56 = 0 then .ok .reset
      else if reqOpc w = 0x03 ∧ w.extractLsb' 8 56 = 0 then .ok .clear
      else if reqOpc w = 0x04 ∧ w.extractLsb' 24 16 = 0 ∧ w.extractLsb' 41 23 = 0 then
        .ok (.setPixel (reqX0 w).toNat (reqY0 w).toNat (reqOn w))
      else if reqOpc w = 0x05 ∧ w.extractLsb' 8 56 = 0 then .ok (.draw src)
      else if reqOpc w = 0x06 ∧ w.extractLsb' 40 24 = 0 then
        .ok (.boundedDraw src (reqX0 w).toNat (reqY0 w).toNat (reqX1 w).toNat (reqY1 w).toNat)
      else if reqOpc w = 0x07 ∧ w.extractLsb' 8 56 = 0 then .ok .flush
      else if reqOpc w = 0x08 ∧ w.extractLsb' 8 56 = 0 then .ok .intoBuffered
      else .error (.reservedWord w) := by
  simp only [decodeRequest, requestRows, List.find?_cons, List.find?_nil, RequestRow.spells,
    ← init_spells, ← reset_spells, ← clear_spells, ← setPixel_spells, ← draw_spells, ← boundedDraw_spells,
    ← flush_spells, ← intoBuffered_spells]
  split_ifs <;> simp only [*, decide_true, decide_false] <;> rfl

/-! ## The fields of an encoded word -/

theorem reqOpc_requestWord (opc x0 y0 x1 y1 : Byte) (on : Bool) : reqOpc (requestWord opc x0 y0 x1 y1 on) = opc := by
  simp only [reqOpc, extract_eq_iff, requestWord, Fin.forall_fin_succ, Fin.forall_fin_zero]
  simp

theorem reqX0_requestWord (opc x0 y0 x1 y1 : Byte) (on : Bool) : reqX0 (requestWord opc x0 y0 x1 y1 on) = x0 := by
  simp only [reqX0, extract_eq_iff, requestWord, Fin.forall_fin_succ, Fin.forall_fin_zero]
  simp

theorem reqY0_requestWord (opc x0 y0 x1 y1 : Byte) (on : Bool) : reqY0 (requestWord opc x0 y0 x1 y1 on) = y0 := by
  simp only [reqY0, extract_eq_iff, requestWord, Fin.forall_fin_succ, Fin.forall_fin_zero]
  simp

theorem reqX1_requestWord (opc x0 y0 x1 y1 : Byte) (on : Bool) : reqX1 (requestWord opc x0 y0 x1 y1 on) = x1 := by
  simp only [reqX1, extract_eq_iff, requestWord, Fin.forall_fin_succ, Fin.forall_fin_zero]
  simp

theorem reqY1_requestWord (opc x0 y0 x1 y1 : Byte) (on : Bool) : reqY1 (requestWord opc x0 y0 x1 y1 on) = y1 := by
  simp only [reqY1, extract_eq_iff, requestWord, Fin.forall_fin_succ, Fin.forall_fin_zero]
  simp

theorem reqOn_requestWord (opc x0 y0 x1 y1 : Byte) (on : Bool) : reqOn (requestWord opc x0 y0 x1 y1 on) = on := by
  simp [reqOn, requestWord]

theorem reserved_requestWord (opc x0 y0 x1 y1 : Byte) (on : Bool) :
    (requestWord opc x0 y0 x1 y1 on).extractLsb' 41 23 = 0 := by
  simp only [extract_eq_iff, requestWord, Fin.forall_fin_succ, Fin.forall_fin_zero]
  simp

/-! ## A word from its fields -/

/-- A bit of a field that is 0. -/
theorem extract_bit {w : Word64} {a n : Nat} (h : w.extractLsb' a n = 0) {i : Nat} (h1 : a ≤ i) (h2 : i < a + n) :
    w.getLsbD i = false := by
  have := (extract_eq_iff w a n 0).1 h ⟨i - a, by omega⟩
  simpa [show a + (i - a) = i by omega] using this

/-- A field within a field that is 0. -/
theorem extract_zero {w : Word64} {a n b m : Nat} (h : w.extractLsb' a n = 0) (h1 : a ≤ b) (h2 : b + m ≤ a + n) :
    w.extractLsb' b m = 0 := by
  refine (extract_eq_iff w b m 0).2 fun i => ?_
  rw [extract_bit h (by omega) (by omega)]; simp

/-- A word with the reserved bits 0 is the word of its fields. -/
theorem word_of_fields {w : Word64} (h : w.extractLsb' 41 23 = 0) :
    w = requestWord (reqOpc w) (reqX0 w) (reqY0 w) (reqX1 w) (reqY1 w) (reqOn w) := by
  apply BitVec.eq_of_getLsbD_eq
  intro i hi
  by_cases h41 : 41 ≤ i
  · rw [extract_bit h h41 (by omega)]
    simp only [requestWord, BitVec.getLsbD_or, BitVec.getLsbD_shiftLeft, BitVec.getLsbD_setWidth]
    repeat rw [BitVec.getLsbD_of_ge _ _ (by omega)]
    simp
  · have hi' : i < 41 := by omega
    clear hi h41 h
    simp only [requestWord, reqOpc, reqX0, reqY0, reqX1, reqY1, reqOn]
    interval_cases i <;> simp
end Sys2Proof
end

