-- ==== Sys2Proof/Laws/State.lean ====
section
/-! SUPPORT. What each update of State does to each field. -/

namespace Sys2Proof.Machine

/-! ## `State.record` -/

@[simp] theorem record_trace (s : State) (k bs a) : (s.record k bs a).trace = s.trace ++ [⟨k, bs, a⟩] := rfl
@[simp] theorem record_answers (s : State) (k bs a) : (s.record k bs a).answers = s.answers.tail := rfl
@[simp] theorem record_mode (s : State) (k bs a) : (s.record k bs a).mode = s.mode := rfl
@[simp] theorem record_fb (s : State) (k bs a) : (s.record k bs a).fb = s.fb := rfl
@[simp] theorem record_rpc (s : State) (k bs a) : (s.record k bs a).rpc = s.rpc := rfl
@[simp] theorem record_refused (s : State) (k bs a) : (s.record k bs a).refused = s.refused := rfl
@[simp] theorem record_faulted (s : State) (k bs a) : (s.record k bs a).faulted = s.faulted := rfl
@[simp] theorem record_seq (s : State) (k bs a) : (s.record k bs a).seq = s.seq := rfl
@[simp] theorem record_port (s : State) (k bs a) : (s.record k bs a).port = s.port := rfl
@[simp] theorem record_response (s : State) (k bs a) : (s.record k bs a).response = s.response := rfl

/-! ## `State.wrote` -/

@[simp] theorem wrote_trace (s : State) (ws) : (s.wrote ws).trace = s.trace ++ okEntries ws := rfl
@[simp] theorem wrote_answers (s : State) (ws) : (s.wrote ws).answers = s.answers.drop ws.length := rfl
@[simp] theorem wrote_mode (s : State) (ws) : (s.wrote ws).mode = s.mode := rfl
@[simp] theorem wrote_fb (s : State) (ws) : (s.wrote ws).fb = s.fb := rfl
@[simp] theorem wrote_rpc (s : State) (ws) : (s.wrote ws).rpc = s.rpc := rfl
@[simp] theorem wrote_refused (s : State) (ws) : (s.wrote ws).refused = s.refused := rfl
@[simp] theorem wrote_faulted (s : State) (ws) : (s.wrote ws).faulted = s.faulted := rfl
@[simp] theorem wrote_seq (s : State) (ws) : (s.wrote ws).seq = s.seq := rfl
@[simp] theorem wrote_port (s : State) (ws) : (s.wrote ws).port = s.port := rfl
@[simp] theorem wrote_response (s : State) (ws) : (s.wrote ws).response = s.response := rfl

@[simp] theorem wrote_nil (s : State) : s.wrote [] = s := by simp [State.wrote, okEntries]

theorem wrote_cons (s : State) (w : Write) (ws) : s.wrote (w :: ws) = (s.record w.1 w.2 .ok).wrote ws := by
  simp [State.wrote, State.record, okEntries]

theorem wrote_append (s : State) (ws vs) : s.wrote (ws ++ vs) = (s.wrote ws).wrote vs := by
  simp [State.wrote, okEntries]

/-! ## `endRequest` -/

@[simp] theorem endRequest_trace (r : Response) (s : State) : (endRequest r s).trace = s.trace := by cases r <;> rfl
@[simp] theorem endRequest_answers (r : Response) (s : State) : (endRequest r s).answers = s.answers := by
  cases r <;> rfl
@[simp] theorem endRequest_mode (r : Response) (s : State) : (endRequest r s).mode = s.mode := by cases r <;> rfl
@[simp] theorem endRequest_fb (r : Response) (s : State) : (endRequest r s).fb = s.fb := by cases r <;> rfl
@[simp] theorem endRequest_port (r : Response) (s : State) : (endRequest r s).port = s.port := by cases r <;> rfl
@[simp] theorem endRequest_seq (r : Response) (s : State) : (endRequest r s).seq = none := by cases r <;> rfl
@[simp] theorem endRequest_response (r : Response) (s : State) : (endRequest r s).response = some r := by
  cases r <;> rfl

/-- R29: `rpc` advances exactly for the outcomes that complete a request. -/
@[simp] theorem endRequest_rpc (r : Response) (s : State) :
    (endRequest r s).rpc = if r.completes then s.rpc + 1 else s.rpc := by cases r <;> rfl

/-- R30: only a refusal sets the mark `refused`. -/
@[simp] theorem endRequest_refused (r : Response) (s : State) :
    (endRequest r s).refused = match r with
      | .refused reason => some reason
      | _ => s.refused := by cases r <;> rfl

/-- R30: only a fault sets the mark `faulted`. -/
@[simp] theorem endRequest_faulted (r : Response) (s : State) :
    (endRequest r s).faulted = match r with
      | .faulted reason => some reason
      | _ => s.faulted := by cases r <;> rfl

/-- The end of a request does not depend on the sequencer state it discards. -/
@[simp] theorem endRequest_seq_update (r : Response) (s : State) (q) :
    endRequest r { s with seq := q } = endRequest r s := by cases r <;> rfl

/-! ## `State.leavePort` -/

@[simp] theorem leavePort_port (s : State) : s.leavePort.port = s.port.tail := rfl
@[simp] theorem leavePort_mode (s : State) : s.leavePort.mode = s.mode := rfl
@[simp] theorem leavePort_fb (s : State) : s.leavePort.fb = s.fb := rfl
@[simp] theorem leavePort_trace (s : State) : s.leavePort.trace = s.trace := rfl
@[simp] theorem leavePort_rpc (s : State) : s.leavePort.rpc = s.rpc := rfl
@[simp] theorem leavePort_refused (s : State) : s.leavePort.refused = s.refused := rfl
@[simp] theorem leavePort_faulted (s : State) : s.leavePort.faulted = s.faulted := rfl
@[simp] theorem leavePort_seq (s : State) : s.leavePort.seq = s.seq := rfl
@[simp] theorem leavePort_answers (s : State) : s.leavePort.answers = s.answers := rfl
@[simp] theorem leavePort_response (s : State) : s.leavePort.response = s.response := rfl

end Sys2Proof.Machine
end

