-- ==== Sys2Proof/Laws/Emit.lean ====
section
/-! SUPPORT. A list of transport writes made one after another: what it leaves when every answer is `ok`, what it
leaves at the first `err`, and that there is no third case. -/

namespace Sys2Proof.Machine

/-! ## `Progress.bind` -/

@[simp] theorem bind_going (s : State) (f) : (Progress.going s).bind f = f s := rfl
@[simp] theorem bind_ended (r) (s : State) (f) : (Progress.ended r s).bind f = .ended r s := rfl

theorem bind_assoc (p : Progress) (f g) : (p.bind f).bind g = p.bind fun s => (f s).bind g := by cases p <;> rfl

@[simp] theorem bind_going_self (p : Progress) : p.bind .going = p := by cases p <;> rfl

/-! ## One write -/

/-- Everything one write can do. -/
theorem emitWrite_cases (k : WriteKind) (bs : List Byte) (s : State) :
    (s.answer k bs = .ok ∧ emitWrite k bs s = .going (s.record k bs .ok)) ∨
    ∃ e, s.answer k bs = .err e ∧ emitWrite k bs s = .ended (.transportFailure e) (s.record k bs (.err e)) := by
  unfold emitWrite
  cases h : s.answer k bs with
  | ok => exact .inl ⟨rfl, rfl⟩
  | err e => exact .inr ⟨e, rfl, rfl⟩

theorem emitWrite_ok {k : WriteKind} {bs : List Byte} {s : State} (h : s.answer k bs = .ok) :
    emitWrite k bs s = .going (s.record k bs .ok) := by simp [emitWrite, h]

theorem emitWrite_err {k : WriteKind} {bs : List Byte} {s : State} {e} (h : s.answer k bs = .err e) :
    emitWrite k bs s = .ended (.transportFailure e) (s.record k bs (.err e)) := by simp [emitWrite, h]

/-- The transport sees the trace and its own script, not the sequencer. -/
@[simp] theorem answer_seq_update (s : State) (q) (k bs) : ({ s with seq := q } : State).answer k bs = s.answer k bs :=
  rfl

/-! ## A list of writes -/

/-- The writes of a list, in order, up to the first one answered `err`. -/
def emitAll : List Write → State → Progress
  | [], s => .going s
  | w :: ws, s => (emitWrite w.1 w.2 s).bind (emitAll ws)

@[simp] theorem emitAll_nil (s : State) : emitAll [] s = .going s := rfl

@[simp] theorem emitAll_cons (w : Write) (ws) (s : State) :
    emitAll (w :: ws) s = (emitWrite w.1 w.2 s).bind (emitAll ws) := rfl

theorem emitAll_append (ws vs : List Write) (s : State) :
    emitAll (ws ++ vs) s = (emitAll ws s).bind (emitAll vs) := by
  induction ws generalizing s with
  | nil => rfl
  | cons w ws ih =>
    simp only [List.cons_append, emitAll_cons, bind_assoc]
    congr 1
    funext t
    exact ih t

@[simp] theorem answersOk_nil (s : State) : AnswersOk [] s := trivial

@[simp] theorem answersOk_cons (w : Write) (ws) (s : State) :
    AnswersOk (w :: ws) s ↔ s.answer w.1 w.2 = .ok ∧ AnswersOk ws (s.record w.1 w.2 .ok) := Iff.rfl

theorem answersOk_append (ws vs : List Write) (s : State) :
    AnswersOk (ws ++ vs) s ↔ AnswersOk ws s ∧ AnswersOk vs (s.wrote ws) := by
  induction ws generalizing s with
  | nil => simp
  | cons w ws ih => simp [ih, wrote_cons, and_assoc]

/-- Whether the transport answers `ok` does not depend on the sequencer. -/
@[simp] theorem answersOk_seq_update (ws : List Write) (s : State) (q) :
    AnswersOk ws { s with seq := q } ↔ AnswersOk ws s := by
  induction ws generalizing s with
  | nil => simp
  | cons w ws ih => exact and_congr Iff.rfl (ih (s.record w.1 w.2 .ok))

/-- A script that begins with as many `ok` as there are writes answers them all. -/
theorem answersOk_of_script (ws : List Write) (s : State) (n : Nat) (rest : List Answer)
    (h : s.answers = List.replicate n .ok ++ rest) (hn : ws.length ≤ n) : AnswersOk ws s := by
  induction ws generalizing s n with
  | nil => simp
  | cons w ws ih =>
    obtain ⟨n, rfl⟩ : ∃ m, n = m + 1 := ⟨n - 1, by simp at hn; omega⟩
    refine ⟨by simp [State.answer, h, List.replicate_succ], ih _ n ?_ (by simpa using hn)⟩
    simp [h, List.replicate_succ]

theorem emitAll_ok {ws : List Write} {s : State} (h : AnswersOk ws s) : emitAll ws s = .going (s.wrote ws) := by
  induction ws generalizing s with
  | nil => simp
  | cons w ws ih => simp [emitWrite_ok h.1, ih h.2, wrote_cons]

theorem emitAll_err {ws : List Write} {w : Write} {vs : List Write} {s : State} {e} (h : AnswersOk ws s)
    (hw : (s.wrote ws).answer w.1 w.2 = .err e) :
    emitAll (ws ++ w :: vs) s = .ended (.transportFailure e) ((s.wrote ws).record w.1 w.2 (.err e)) := by
  rw [emitAll_append, emitAll_ok h]
  simp [emitWrite_err hw]

/-- Everything a list of writes can do: all answered `ok`, or a first one answered `err`. -/
theorem emitAll_cases (ws : List Write) (s : State) :
    (AnswersOk ws s ∧ emitAll ws s = .going (s.wrote ws)) ∨
    ∃ us w vs e, ws = us ++ w :: vs ∧ AnswersOk us s ∧ (s.wrote us).answer w.1 w.2 = .err e ∧
      emitAll ws s = .ended (.transportFailure e) ((s.wrote us).record w.1 w.2 (.err e)) := by
  induction ws generalizing s with
  | nil => exact .inl ⟨trivial, by simp⟩
  | cons w ws ih =>
    rcases emitWrite_cases w.1 w.2 s with ⟨ha, he⟩ | ⟨e, ha, he⟩
    · rcases ih (s.record w.1 w.2 .ok) with ⟨hok, hall⟩ | ⟨us, w', vs, e, rfl, hok, hw, hall⟩
      · exact .inl ⟨⟨ha, hok⟩, by simp [he, hall, wrote_cons]⟩
      · exact .inr ⟨w :: us, w', vs, e, rfl, ⟨ha, hok⟩, by simpa [wrote_cons] using hw,
          by simpa [he, wrote_cons] using hall⟩
    · exact .inr ⟨[], w, ws, e, rfl, trivial, by simpa using ha, by simp [he]⟩

end Sys2Proof.Machine
end

