-- ==== Sys2Proof/Laws/Memory.lean ====
section
/-! SUPPORT. The framebuffer's reads and writes, and that every operation keeps the canonical form. -/

namespace Sys2Proof.Machine

@[simp] theorem read_zeroed (a : Nat) : Memory.read Memory.zeroed a = 0 := rfl

@[simp] theorem wf_zeroed : Memory.wf Memory.zeroed = true := rfl

/-- What one listed byte of a canonical memory satisfies. -/
theorem wfFrom_cons {lo a : Nat} {v : Byte} {m : Memory} :
    Memory.wfFrom lo ((a, v) :: m) = true ↔
      lo ≤ a ∧ a < Config.bufSize ∧ v ≠ Memory.unlisted ∧ Memory.wfFrom (a + 1) m = true := by
  simp [Memory.wfFrom, and_assoc]

theorem wfFrom_le {lo lo' : Nat} {m : Memory} (hle : lo' ≤ lo) (h : Memory.wfFrom lo m = true) :
    Memory.wfFrom lo' m = true := by
  cases m with
  | nil => rfl
  | cons c m =>
    obtain ⟨h1, h2, h3, h4⟩ := wfFrom_cons.1 h
    exact wfFrom_cons.2 ⟨by omega, h2, h3, h4⟩

/-- A byte below the listed indices reads as an unlisted one. -/
theorem read_below {lo a : Nat} {m : Memory} (h : Memory.wfFrom lo m = true) (ha : a < lo) :
    m.read a = Memory.unlisted := by
  induction m generalizing lo with
  | nil => rfl
  | cons c m ih =>
    obtain ⟨h1, -, -, h4⟩ := wfFrom_cons.1 h
    have hne : a ≠ c.1 := by omega
    simp only [Memory.read, hne, if_false]
    exact ih h4 (by omega)

/-- A byte outside the 1024 reads as an unlisted one. -/
theorem read_above {lo a : Nat} {m : Memory} (h : Memory.wfFrom lo m = true) (ha : Config.bufSize ≤ a) :
    m.read a = Memory.unlisted := by
  induction m generalizing lo with
  | nil => rfl
  | cons c m ih =>
    obtain ⟨-, h2, -, h4⟩ := wfFrom_cons.1 h
    have hne : a ≠ c.1 := by omega
    simp only [Memory.read, hne, if_false]
    exact ih h4

theorem read_write_wfFrom {lo : Nat} {m : Memory} (h : Memory.wfFrom lo m = true) (a b : Nat) (v : Byte) :
    (m.write a v).read b = if b = a then v else m.read b := by
  induction m generalizing lo with
  | nil =>
    by_cases hv : v = Memory.unlisted <;> by_cases hb : b = a <;> simp [Memory.write, Memory.read, hv, hb]
  | cons c m ih =>
    obtain ⟨i, u⟩ := c
    obtain ⟨-, -, -, h4⟩ := wfFrom_cons.1 h
    have hlow : ∀ x, x ≤ i → Memory.read m x = Memory.unlisted := fun x hx => read_below h4 (by omega)
    by_cases hai : a < i
    · by_cases hv : v = Memory.unlisted
      · by_cases hb : b = a
        · subst hb; subst hv
          simp [Memory.write, Memory.read, hai, Nat.ne_of_lt hai, hlow b (by omega)]
        · simp [Memory.write, hai, hv, hb]
      · simp [Memory.write, hai, hv, Memory.read]
    · by_cases hai' : a = i
      · subst hai'
        by_cases hv : v = Memory.unlisted
        · by_cases hb : b = a
          · subst hb; subst hv; simp [Memory.write, hlow]
          · simp [Memory.write, Memory.read, hv, hb]
        · by_cases hb : b = a <;> simp [Memory.write, Memory.read, hv, hb]
      · by_cases hb : b = i
        · subst hb
          have hne : b ≠ a := fun e => hai' e.symm
          simp [Memory.write, Memory.read, hai, hai', hne]
        · simp [Memory.write, Memory.read, hai, hai', hb, ih h4]

/-- A read after a write gives the value written, and every other byte is as before. -/
theorem read_write {m : Memory} (h : m.wf = true) (a b : Nat) (v : Byte) :
    (m.write a v).read b = if b = a then v else m.read b :=
  read_write_wfFrom h a b v

theorem wfFrom_write {lo a : Nat} {m : Memory} (h : Memory.wfFrom lo m = true) (hlo : lo ≤ a)
    (ha : a < Config.bufSize) (v : Byte) : Memory.wfFrom lo (m.write a v) = true := by
  induction m generalizing lo with
  | nil =>
    by_cases hv : v = Memory.unlisted
    · simp [Memory.write, hv, Memory.wfFrom]
    · simp only [Memory.write, hv, if_false]
      exact wfFrom_cons.2 ⟨hlo, ha, hv, rfl⟩
  | cons c m ih =>
    obtain ⟨i, u⟩ := c
    obtain ⟨h1, h2, h3, h4⟩ := wfFrom_cons.1 h
    by_cases hai : a < i
    · by_cases hv : v = Memory.unlisted
      · simpa [Memory.write, hai, hv] using h
      · simp only [Memory.write, hai, hv, if_true, if_false]
        exact wfFrom_cons.2 ⟨hlo, ha, hv, wfFrom_cons.2 ⟨by omega, h2, h3, h4⟩⟩
    · by_cases hai' : a = i
      · subst hai'
        by_cases hv : v = Memory.unlisted
        · simp only [Memory.write, hv, if_true, if_false, Nat.lt_irrefl]
          exact wfFrom_le (by omega) h4
        · simp only [Memory.write, hv, if_true, if_false, Nat.lt_irrefl]
          exact wfFrom_cons.2 ⟨hlo, ha, hv, h4⟩
      · simp only [Memory.write, hai, hai', if_false]
        exact wfFrom_cons.2 ⟨h1, h2, h3, ih h4 (by omega)⟩

/-- A write inside the framebuffer keeps the canonical form. -/
theorem wf_write {m : Memory} (h : m.wf = true) {a : Nat} (ha : a < Config.bufSize) (v : Byte) :
    (m.write a v).wf = true :=
  wfFrom_write h (Nat.zero_le a) ha v

/-- Equal contents are equal lists: a canonical memory is determined by what its bytes read as. -/
theorem wfFrom_ext {lo : Nat} {m m' : Memory} (h : Memory.wfFrom lo m = true) (h' : Memory.wfFrom lo m' = true)
    (hr : ∀ a, m.read a = m'.read a) : m = m' := by
  induction m generalizing lo m' with
  | nil =>
    cases m' with
    | nil => rfl
    | cons c' m' =>
      obtain ⟨-, -, h3, -⟩ := wfFrom_cons.1 h'
      have := hr c'.1
      simp [Memory.read] at this
      exact absurd this.symm h3
  | cons c m ih =>
    obtain ⟨i, u⟩ := c
    obtain ⟨-, -, h3, h4⟩ := wfFrom_cons.1 h
    cases m' with
    | nil =>
      have := hr i
      simp [Memory.read] at this
      exact absurd this h3
    | cons c' m' =>
      obtain ⟨j, w⟩ := c'
      obtain ⟨-, -, h3', h4'⟩ := wfFrom_cons.1 h'
      have hij : i = j := by
        rcases Nat.lt_trichotomy i j with hlt | heq | hgt
        · have := hr i
          simp [Memory.read, Nat.ne_of_lt hlt, read_below h4' (show i < j + 1 by omega)] at this
          exact absurd this h3
        · exact heq
        · have := hr j
          simp [Memory.read, Nat.ne_of_lt hgt, read_below h4 (show j < i + 1 by omega)] at this
          exact absurd this.symm h3'
      subst hij
      have huw : u = w := by simpa [Memory.read] using hr i
      subst huw
      have hm : m = m' := by
        refine ih h4 h4' fun a => ?_
        by_cases ha : a = i
        · rw [ha, read_below h4 (by omega), read_below h4' (by omega)]
        · simpa [Memory.read, ha] using hr a
      rw [hm]

/-- Two canonical memories that read alike are the same list. -/
theorem wf_ext {m m' : Memory} (h : m.wf = true) (h' : m'.wf = true) (hr : ∀ a, m.read a = m'.read a) : m = m' :=
  wfFrom_ext h h' hr

end Sys2Proof.Machine
end

