-- ==== Sys2Proof/Laws/Sequencer.lean ====
section
/-! SUPPORT. What the sequencer's run leaves: it is the list of the writes due at its positions. -/

namespace Sys2Proof.Machine

/-! ## The commands the sequencer uses, in range -/

theorem pageAddr_bytes : ∀ p ≤ 7, Cmd.pageAddr p = some [BitVec.ofNat 8 (0xB0 + p)] := by decide

theorem colLo_bytes : ∀ c ≤ 131, Cmd.colLo c = some [BitVec.ofNat 8 (c % 16)] := by decide

theorem colHi_bytes : ∀ c ≤ 131, Cmd.colHi c = some [BitVec.ofNat 8 (0x10 + c / 16)] := by decide

theorem resRatio_bytes : ∀ r ≤ 7, Cmd.resRatio r = some [BitVec.ofNat 8 (0x20 + r)] := by decide

theorem startLine_bytes : ∀ l ≤ 63, Cmd.startLine l = some [BitVec.ofNat 8 (0x40 + l)] := by decide

theorem biasCommand_bytes (b : BiasChoice) : (biasCommand b).command = some [biasByte b] := by cases b <;> rfl

theorem segCommand_bytes (d : Direction) : (segCommand d).command = some [segByte d] := by cases d <;> rfl

theorem comCommand_bytes (d : Direction) : (comCommand d).command = some [comByte d] := by cases d <;> rfl

theorem stageCommand_bytes (p : PowerStage) : (stageCommand p).command = some [stageByte p] := by cases p <;> rfl

/-! ## Writes that are due -/

/-- The write a due item is, where its command exists. -/
def Due.write : Due → Option Write
  | .command i => i.command.map (WriteKind.cmd, ·)
  | .data bytes => some (.data, bytes)

theorem emitDue_of_write {d : Due} {w : Write} (h : d.write = some w) (s : State) :
    emitDue d s = emitWrite w.1 w.2 s := by
  cases d with
  | data bytes => obtain rfl : (WriteKind.data, bytes) = w := by simpa [Due.write] using h
                  rfl
  | command i =>
    cases hc : i.command with
    | none => simp [Due.write, hc] at h
    | some bytes => obtain rfl : (WriteKind.cmd, bytes) = w := by simpa [Due.write, hc] using h
                    simp [emitDue, hc, emitCommand]

/-! ## Positions -/

/-- The positions `qs` follow one another and lead on to `last`. -/
def Chain (j : Job) (last : Option Sequencer) : List Sequencer → Prop
  | [] => True
  | q :: qs => j.advance q = qs.head?.or last ∧ Chain j last qs

theorem chain_append {j : Job} {last : Option Sequencer} {qs qs' : List Sequencer}
    (h : Chain j (qs'.head?.or last) qs) (h' : Chain j last qs') : Chain j last (qs ++ qs') := by
  induction qs with
  | nil => exact h'
  | cons q qs ih =>
    refine ⟨?_, ih h.2⟩
    rw [h.1]
    cases qs <;> simp

/-- The writes due at positions, where every command of theirs exists. -/
def Writes (j : Job) (qs : List Sequencer) (ws : List Write) : Prop := qs.map (fun q => (j.due q).write) = ws.map some

theorem writes_append {j : Job} {qs qs' : List Sequencer} {ws ws' : List Write} (h : Writes j qs ws)
    (h' : Writes j qs' ws') : Writes j (qs ++ qs') (ws ++ ws') := by
  simp only [Writes, List.map_append] at *
  rw [h, h']

/-- The sequencer's run along a chain of positions ends as the list of their writes ends. -/
theorem runSequencer_finish {j : Job} {qs : List Sequencer} {ws : List Write} (hc : Chain j none qs)
    (hw : Writes j qs ws) (s : State) :
    (runSequencer j qs.length { s with seq := qs.head? }).finish = (emitAll ws s).finish := by
  induction qs generalizing ws s with
  | nil =>
    obtain rfl : ws = [] := by simpa [Writes] using hw
    simp [runSequencer, Progress.finish]
  | cons q qs ih =>
    cases ws with
    | nil => simp [Writes] at hw
    | cons w ws =>
      simp only [Writes, List.map_cons, List.cons.injEq] at hw
      have hq : j.advance q = qs.head? := by simpa using hc.1
      simp only [List.length_cons, List.head?_cons, runSequencer, emitDue_of_write hw.1, emitAll_cons, hq]
      rcases emitWrite_cases w.1 w.2 s with ⟨ha, he⟩ | ⟨e, ha, he⟩
      · rw [emitWrite_ok (s := { s with seq := some q }) ha, he]
        exact ih hc.2 hw.2 (s.record w.1 w.2 .ok)
      · rw [emitWrite_err (s := { s with seq := some q }) ha, he]
        exact endRequest_seq_update (.transportFailure e) (s.record w.1 w.2 (.err e)) (some q)

/-! ## The positions of a region flush -/

/-- The positions of the pages `p` to `p + n - 1`. -/
def flushPositions (p n : Nat) : List Sequencer := (List.range' p n).flatMap pagePositions

theorem flushPositions_succ (p n : Nat) : flushPositions p (n + 1) = pagePositions p ++ flushPositions (p + 1) n := by
  simp [flushPositions, List.range'_succ]

theorem flushPositions_length (p n : Nat) : (flushPositions p n).length = 4 * n := by
  induction n generalizing p with
  | zero => rfl
  | succ n ih => simp [flushPositions_succ, ih, pagePositions]; omega

theorem flushPositions_chain (j : Job) (p n : Nat) (h : p + n = j.rect.lastPage + 1) :
    Chain j j.after (flushPositions p n) := by
  induction n generalizing p with
  | zero => simp [flushPositions, Chain]
  | succ n ih =>
    rw [flushPositions_succ]
    refine chain_append ⟨rfl, rfl, rfl, ?_, trivial⟩ (ih (p + 1) (by omega))
    cases n with
    | zero => simp [Job.advance, flushPositions, show ¬ p < j.rect.lastPage by omega]
    | succ n => simp [Job.advance, flushPositions_succ, pagePositions, show p < j.rect.lastPage by omega]

theorem flushPositions_writes (j : Job) (p n : Nat) (hp : p + n ≤ 8) (hx : j.rect.x0 ≤ 131) :
    Writes j (flushPositions p n) ((List.range' p n).flatMap (pageWrites j.source j.rect)) := by
  induction n generalizing p with
  | zero => rfl
  | succ n ih =>
    rw [flushPositions_succ, List.range'_succ, List.flatMap_cons]
    refine writes_append ?_ (ih (p + 1) (by omega))
    simp [Writes, pagePositions, pageWrites, Job.due, Due.write, Instr.command, pageAddr_bytes p (by omega), colLo_bytes _ hx,
      colHi_bytes _ hx]

/-! ## The region flush -/

theorem valid_iff (r : Rect) :
    r.valid = true ↔ r.x0 < 128 ∧ r.y0 < 64 ∧ r.x1 < 128 ∧ r.y1 < 64 ∧ r.x0 ≤ r.x1 ∧ r.y0 ≤ r.y1 := by
  simp [Rect.valid, and_assoc]

/-- R161: a valid rectangle touches at least one page, all of them in 0..7. -/
theorem valid_pages {r : Rect} (h : r.valid = true) :
    r.firstPage ≤ r.lastPage ∧ r.lastPage ≤ 7 ∧ r.firstPage + r.pageCount = r.lastPage + 1 := by
  obtain ⟨-, -, -, h4, -, h6⟩ := (valid_iff r).1 h
  simp only [Rect.pageCount, Rect.firstPage, Rect.lastPage, pageOf, Config.pageRows]
  omega

@[simp] theorem valid_whole : Rect.whole.valid = true := rfl

theorem positions_length (r : Rect) : r.positions.length = 4 * r.pageCount := flushPositions_length _ _

/-! ## The jobs -/

/-- The source holds the 1024 bytes a region flush needs. -/
def Source.full : Source → Prop
  | .src bytes => bytes.length = 1024
  | .fb _ | .zero => True

/-- The writes a job makes, in order. -/
def Job.writes : Job → List Write
  | .init => initWrites
  | .reset => [(.cmd, [0xE2])]
  | .flush source rect => flushWrites source rect

/-- The rectangle of a job is one on the display. -/
def Job.ok : Job → Prop
  | .init | .reset => True
  | .flush _ rect => rect.valid = true

theorem initCommands_bytes :
    initCommands.map Instr.command = [some [biasByte Config.pBias], some [segByte Config.pSeg],
      some [comByte Config.pCom], some [BitVec.ofNat 8 (0x20 + Config.pRatio.val)], some [0x81, 0x28],
      some [stageByte Config.pPwr0], some [stageByte Config.pPwr1], some [stageByte Config.pPwr2], some [0x40]] := by
  have hr : Config.pRatio.val ≤ 7 := by have := Config.pRatio.isLt; omega
  have hratio : (Instr.resRatio Config.pRatio.val).command = some [BitVec.ofNat 8 (0x20 + Config.pRatio.val)] :=
    resRatio_bytes _ hr
  simp only [initCommands, List.map_cons, List.map_nil, biasCommand_bytes, segCommand_bytes, comCommand_bytes,
    stageCommand_bytes, hratio]
  rfl

/-- The positions of a job follow one another to the last. -/
theorem positions_chain {j : Job} (h : j.ok) : Chain j none j.positions := by
  cases j with
  | reset => exact ⟨rfl, trivial⟩
  | flush source r => exact flushPositions_chain (.flush source r) _ _ (valid_pages h).2.2
  | init =>
    refine chain_append (chain_append ?_ (flushPositions_chain .init 0 8 rfl)) ⟨rfl, trivial⟩
    simp [Chain, Job.advance, initCommands, List.range_succ]
    rfl

/-- The writes due at the positions of a job are its writes. -/
theorem positions_writes {j : Job} (h : j.ok) : Writes j j.positions j.writes := by
  cases j with
  | reset => rfl
  | flush source r =>
    obtain ⟨hle, h7, hcount⟩ := valid_pages h
    have hx := ((valid_iff r).1 h).1
    exact flushPositions_writes (.flush source r) _ _ (by omega) (by simp only [Job.rect]; omega)
  | init =>
    refine writes_append (writes_append ?_ (flushPositions_writes .init 0 8 (by decide) (by decide))) rfl
    have hb := initCommands_bytes
    simp only [initCommands, List.map_cons, List.map_nil, List.cons.injEq] at hb
    obtain ⟨b0, b1, b2, b3, b4, b5, b6, b7, b8, -⟩ := hb
    simp [Writes, initFirstWrites, Job.due, Due.write, initCommands, List.range_succ, b0, b1, b2, b3, b4, b5, b6, b7, b8]

theorem chain_next {j : Job} {last : Option Sequencer} {qs : List Sequencer} (hc : Chain j last qs) {q q' : Sequencer}
    (hq : q ∈ qs) (h : j.advance q = some q') : q' ∈ qs ∨ last = some q' := by
  induction qs with
  | nil => cases hq
  | cons a qs ih =>
    rcases List.mem_cons.1 hq with rfl | hq
    · rw [hc.1] at h
      cases qs with
      | nil => exact .inr (by simpa using h)
      | cons b qs => exact .inl (by simp at h; simp [h])
    · exact (ih hc.2 hq).imp (List.mem_cons_of_mem _) id

/-- A position's successor is a position of the same job. -/
theorem advance_mem {j : Job} (h : j.ok) {q q' : Sequencer} (hq : q ∈ j.positions) (ha : j.advance q = some q') :
    q' ∈ j.positions := (chain_next (positions_chain h) hq ha).resolve_right (by simp)

/-- A job ends as the list of its writes ends. -/
theorem run_finish {j : Job} (h : j.ok) (s : State) : (j.run s).finish = (emitAll j.writes s).finish :=
  runSequencer_finish (positions_chain h) (positions_writes h) s

/-- A region flush over a valid rectangle ends as the list of its writes ends. -/
theorem regionFlush_finish (source : Source) {r : Rect} (h : r.valid = true) (s : State) :
    (regionFlush source r s).finish = (emitAll (flushWrites source r) s).finish := run_finish (j := .flush source r) h s

/-- At each position of a job one of its writes is due. -/
theorem due_mem_writes {j : Job} (h : j.ok) {q : Sequencer} (hq : q ∈ j.positions) :
    ∃ w ∈ j.writes, (j.due q).write = some w := by
  have hw := positions_writes h
  have := List.mem_map_of_mem (f := fun q => (j.due q).write) hq
  rw [hw, List.mem_map] at this
  obtain ⟨w, hw, he⟩ := this
  exact ⟨w, hw, he.symm⟩

end Sys2Proof.Machine
end

