-- ==== Sys2Proof/Laws/Exec.lean ====
section
/-! SUPPORT. Each meaning by what it leaves: one equation for each request, and the one list of everything an
instruction can do. -/

namespace Sys2Proof.Machine

/-! ## How a list of writes ends a request -/

/-- All writes answered `ok`: the request returns `Ok`. -/
theorem finish_ok {ws : List Write} {s : State} (h : AnswersOk ws s) : (emitAll ws s).finish = s.completed ws := by
  rw [emitAll_ok h]; rfl

/-- A write answered `err`: the request returns that error. -/
theorem finish_err {ws us : List Write} {w : Write} {s : State} {e} (h : FailsAt ws s us w e) :
    (emitAll ws s).finish = s.failedAt us w e := by
  obtain ⟨⟨vs, rfl⟩, hok, hw⟩ := h
  rw [emitAll_err hok hw]
  simp [Progress.finish, endRequest, State.record, State.wrote, State.failedAt]

/-- There is no third case. -/
theorem finish_cases (ws : List Write) (s : State) :
    (AnswersOk ws s ∧ (emitAll ws s).finish = s.completed ws) ∨
    ∃ us w e, FailsAt ws s us w e ∧ (emitAll ws s).finish = s.failedAt us w e := by
  rcases emitAll_cases ws s with ⟨hok, -⟩ | ⟨us, w, vs, e, hws, hok, hw, -⟩
  · exact .inl ⟨hok, finish_ok hok⟩
  · exact .inr ⟨us, w, e, ⟨⟨vs, hws⟩, hok, hw⟩, finish_err ⟨⟨vs, hws⟩, hok, hw⟩⟩

/-! ## The mode gate -/

theorem gated_pass {m : Mode} {body} {s : State} (h : s.mode = m) : gated m body s = body s := by simp [gated, h]

theorem gated_refuse {m : Mode} {body} {s : State} (h : s.mode ≠ m) :
    gated m body s = .next (s.refusedFor .modeGate) := by simp [gated, h, endRequest, State.refusedFor]

/-! ## The requests -/

theorem exec_init (s : State) : exec .init s = .next (emitAll initWrites s).finish := by
  simp [exec, execInit, run_finish (j := .init) trivial, Job.writes]

theorem exec_reset (s : State) : exec .reset s = .next (emitAll [(.cmd, [0xE2])] s).finish := by
  simp [exec, execReset, run_finish (j := .reset) trivial, Job.writes]

theorem exec_clear {s : State} {m : Memory} (h : s.mode = .buffered) (hm : s.fb = some m) :
    exec .clear s =
      .next { s with fb := some Memory.zeroed, rpc := s.rpc + 1, response := some .ok, seq := none } := by
  simp [exec, execClear, gated_pass h, withFramebuffer, hm, endRequest]

theorem exec_setPixel {s : State} {m : Memory} (h : s.mode = .buffered) (hm : s.fb = some m) (x y : Nat) (on : Bool) :
    exec (.setPixel x y on) s = .next
      (if x < 128 ∧ y < 64 then
        { s with fb := some (setPixel m x y on), rpc := s.rpc + 1, response := some .ok, seq := none }
       else s.outOfBounds) := by
  by_cases hxy : x < 128 ∧ y < 64
  · simp [exec, execSetPixel, gated_pass h, withFramebuffer, hm, endRequest, validPixel, hxy]
  · rw [if_neg hxy]
    simp only [exec, execSetPixel, gated_pass h]
    rw [if_neg (by simpa [validPixel] using hxy)]
    rfl

theorem exec_draw (src : List Byte) (s : State) :
    exec (.draw src) s = .next
      (if src.length = 1024 then (emitAll (flushWrites (.src src) Rect.whole) s).finish else s.outOfBounds) := by
  simp only [exec, execDraw, regionFlush_finish _ valid_whole]
  rfl

theorem exec_boundedDraw (src : List Byte) (x0 y0 x1 y1 : Nat) (s : State) :
    exec (.boundedDraw src x0 y0 x1 y1) s = .next
      (if x0 < 128 ∧ y0 < 64 ∧ x1 < 128 ∧ y1 < 64 ∧ x0 ≤ x1 ∧ y0 ≤ y1 then
        (if src.length = 1024 then (emitAll (flushWrites (.src src) ⟨x0, y0, x1, y1⟩) s).finish
         else s.faultedFor (.srcLength src.length))
       else s.outOfBounds) := by
  simp only [exec, execBoundedDraw, ← valid_iff ⟨x0, y0, x1, y1⟩]
  by_cases h : Rect.valid ⟨x0, y0, x1, y1⟩ = true
  · simp only [h, if_true, regionFlush_finish _ h]; rfl
  · simp only [h]; rfl

theorem exec_flush {s : State} {m : Memory} (h : s.mode = .buffered) (hm : s.fb = some m) :
    exec .flush s = .next (emitAll (flushWrites (.fb m) Rect.whole) s).finish := by
  simp [exec, execFlush, gated_pass h, withFramebuffer, hm, regionFlush_finish _ valid_whole]

theorem exec_intoBuffered {s : State} (h : s.mode = .directWrite) :
    exec .intoBuffered s = .next
      { s with mode := .buffered, fb := some Memory.zeroed, rpc := s.rpc + 1, response := some .ok, seq := none } := by
  simp [exec, execIntoBuffered, gated_pass h, endRequest]

/-! ## One wire command -/

theorem afterWrite_ok {bytes : List Byte} {s : State} (h : s.answer .cmd bytes = .ok) :
    (emitCommand (some bytes) s).afterWrite = s.record .cmd bytes .ok := by
  simp [emitCommand, emitWrite_ok h, Progress.afterWrite]

theorem afterWrite_err {bytes : List Byte} {s : State} {e} (h : s.answer .cmd bytes = .err e) :
    (emitCommand (some bytes) s).afterWrite = s.failedAt [] (.cmd, bytes) e := by
  simp [emitCommand, emitWrite_err h, Progress.afterWrite, endRequest, State.record, State.failedAt, okEntries]

theorem afterWrite_none (s : State) : (emitCommand none s).afterWrite = s.faultedFor .commandRange := rfl

/-- A wire command is one command write of its constructor's bytes. -/
theorem exec_command {i : Instr} (h : i.isRequest = false) (s : State) :
    exec i s = .next (emitCommand i.command s).afterWrite := by
  cases i <;> first | rfl | cases h

/-- The encoder of a wire command is its constructor. -/
theorem encode_command {i : Instr} (h : i.isRequest = false) : encode i = i.command.map .command := by
  cases i <;> first | rfl | cases h

/-! ## Everything an instruction can do -/

/-- The four ways an instruction ends in a next state `t` from `s`. -/
inductive Effect (i : Instr) (s t : State) : Prop where
  /-- A wire command: one command write, or a fault where it has no bytes. -/
  | command (h : i.isRequest = false) (ht : t = (emitCommand i.command s).afterWrite)
  /-- A request that makes writes: its writes, all of them legal. -/
  | writes (ws : List Write)
      (h : (i = .init ∧ ws = initWrites) ∨ (i = .reset ∧ ws = [(.cmd, [0xE2])]) ∨
        (∃ src, i = .draw src ∧ src.length = 1024 ∧ ws = flushWrites (.src src) Rect.whole) ∨
        (∃ src x0 y0 x1 y1, i = .boundedDraw src x0 y0 x1 y1 ∧ Rect.valid ⟨x0, y0, x1, y1⟩ = true ∧
          src.length = 1024 ∧ ws = flushWrites (.src src) ⟨x0, y0, x1, y1⟩) ∨
        (∃ m, i = .flush ∧ s.mode = .buffered ∧ s.fb = some m ∧ ws = flushWrites (.fb m) Rect.whole))
      (ht : t = (emitAll ws s).finish)
  /-- A request that ends before any effect. -/
  | ends (r : Response)
      (h : (r = .outOfBounds ∧ ((∃ x y v, i = .setPixel x y v ∧ (128 ≤ x ∨ 64 ≤ y)) ∨
            (∃ src x0 y0 x1 y1, i = .boundedDraw src x0 y0 x1 y1 ∧ Rect.valid ⟨x0, y0, x1, y1⟩ ≠ true) ∨
            ∃ src, i = .draw src ∧ src.length ≠ 1024)) ∨
        (r = .refused .modeGate ∧ (((i = .clear ∨ i = .flush ∨ ∃ x y v, i = .setPixel x y v) ∧
            s.mode = .directWrite) ∨ (i = .intoBuffered ∧ s.mode = .buffered))) ∨
        (∃ src x0 y0 x1 y1, i = .boundedDraw src x0 y0 x1 y1 ∧ Rect.valid ⟨x0, y0, x1, y1⟩ = true ∧
          src.length ≠ 1024 ∧ r = .faulted (.srcLength src.length)))
      (ht : t = endRequest r s)
  /-- A request that writes the framebuffer and returns `Ok`. -/
  | framebuffer (mode : Mode) (m : Memory)
      (h : (i = .clear ∧ s.mode = .buffered ∧ mode = .buffered ∧ m = Memory.zeroed) ∨
        (i = .intoBuffered ∧ s.mode = .directWrite ∧ mode = .buffered ∧ m = Memory.zeroed) ∨
        (∃ x y v m₀, i = .setPixel x y v ∧ s.mode = .buffered ∧ mode = .buffered ∧ s.fb = some m₀ ∧ x < 128 ∧ y < 64 ∧
          m = setPixel m₀ x y v))
      (ht : t = endRequest .ok { s with mode := mode, fb := some m })

/-- What an instruction does when it ends in a next state. -/
theorem exec_effect {i : Instr} {s t : State} (h : exec i s = .next t) : Effect i s t := by
  by_cases hreq : i.isRequest = false
  · rw [exec_command hreq] at h
    exact .command hreq (by injection h with h; exact h.symm)
  have mode_cases : s.mode = .directWrite ∨ s.mode = .buffered := by cases s.mode <;> simp
  cases i with
  | init =>
    rw [exec_init] at h
    exact .writes initWrites (.inl ⟨rfl, rfl⟩) (by injection h with h; exact h.symm)
  | reset =>
    rw [exec_reset] at h
    exact .writes _ (.inr (.inl ⟨rfl, rfl⟩)) (by injection h with h; exact h.symm)
  | draw src =>
    rw [exec_draw] at h
    injection h with h
    by_cases hl : src.length = 1024
    · rw [if_pos hl] at h
      exact .writes _ (.inr (.inr (.inl ⟨src, rfl, hl, rfl⟩))) h.symm
    · rw [if_neg hl] at h
      exact .ends .outOfBounds (.inl ⟨rfl, .inr (.inr ⟨src, rfl, hl⟩)⟩) h.symm
  | boundedDraw src x0 y0 x1 y1 =>
    rw [exec_boundedDraw] at h
    injection h with h
    by_cases hv : x0 < 128 ∧ y0 < 64 ∧ x1 < 128 ∧ y1 < 64 ∧ x0 ≤ x1 ∧ y0 ≤ y1
    · rw [if_pos hv] at h
      by_cases hl : src.length = 1024
      · rw [if_pos hl] at h
        exact .writes _ (.inr (.inr (.inr (.inl ⟨src, x0, y0, x1, y1, rfl, (valid_iff _).2 hv, hl, rfl⟩)))) h.symm
      · rw [if_neg hl] at h
        exact .ends (.faulted (.srcLength src.length))
          (.inr (.inr ⟨src, x0, y0, x1, y1, rfl, (valid_iff _).2 hv, hl, rfl⟩)) h.symm
    · rw [if_neg hv] at h
      exact .ends .outOfBounds (.inl ⟨rfl, .inr (.inl ⟨src, x0, y0, x1, y1, rfl, fun hc => hv ((valid_iff _).1 hc)⟩)⟩)
        h.symm
  | flush =>
    rcases mode_cases with hm | hm
    · simp only [exec, execFlush, gated, hm, reduceCtorEq, if_false] at h
      exact .ends (.refused .modeGate) (.inr (.inl ⟨rfl, .inl ⟨.inr (.inl rfl), hm⟩⟩)) (by injection h with h; exact h.symm)
    · cases hfb : s.fb with
      | none => simp [exec, execFlush, gated, hm, withFramebuffer, hfb] at h
      | some m =>
        rw [exec_flush hm hfb] at h
        exact .writes _ (.inr (.inr (.inr (.inr ⟨m, rfl, hm, hfb, rfl⟩)))) (by injection h with h; exact h.symm)
  | clear =>
    rcases mode_cases with hm | hm
    · simp only [exec, execClear, gated, hm, reduceCtorEq, if_false] at h
      exact .ends (.refused .modeGate) (.inr (.inl ⟨rfl, .inl ⟨.inl rfl, hm⟩⟩)) (by injection h with h; exact h.symm)
    · cases hfb : s.fb with
      | none => simp [exec, execClear, gated, hm, withFramebuffer, hfb] at h
      | some m =>
        rw [exec_clear hm hfb] at h
        exact .framebuffer .buffered Memory.zeroed (.inl ⟨rfl, hm, rfl, rfl⟩)
          (by injection h with h; rw [← h]; simp [endRequest, hm])
  | setPixel x y v =>
    rcases mode_cases with hm | hm
    · simp only [exec, execSetPixel, gated, hm, reduceCtorEq, if_false] at h
      exact .ends (.refused .modeGate) (.inr (.inl ⟨rfl, .inl ⟨.inr (.inr ⟨x, y, v, rfl⟩), hm⟩⟩))
        (by injection h with h; exact h.symm)
    · by_cases hxy : x < 128 ∧ y < 64
      · cases hfb : s.fb with
        | none => simp [exec, execSetPixel, gated, hm, withFramebuffer, hfb, validPixel, hxy] at h
        | some m =>
          rw [exec_setPixel hm hfb, if_pos hxy] at h
          exact .framebuffer .buffered (setPixel m x y v)
            (.inr (.inr ⟨x, y, v, m, rfl, hm, rfl, hfb, hxy.1, hxy.2, rfl⟩))
            (by injection h with h; rw [← h]; simp [endRequest, hm])
      · have hb : 128 ≤ x ∨ 64 ≤ y := by omega
        have hv : ¬ validPixel x y = true := by simpa [validPixel] using hxy
        simp only [exec, execSetPixel, gated_pass hm, if_neg hv] at h
        exact .ends .outOfBounds (.inl ⟨rfl, .inl ⟨x, y, v, rfl, hb⟩⟩) (by injection h with h; exact h.symm)
  | intoBuffered =>
    rcases mode_cases with hm | hm
    · rw [exec_intoBuffered hm] at h
      exact .framebuffer .buffered Memory.zeroed (.inr (.inl ⟨rfl, hm, rfl, rfl⟩)) (by injection h with h; exact h.symm)
    · simp only [exec, execIntoBuffered, gated, hm, reduceCtorEq, if_false] at h
      exact .ends (.refused .modeGate) (.inr (.inl ⟨rfl, .inr ⟨rfl, hm⟩⟩)) (by injection h with h; exact h.symm)
  | _ => exact absurd rfl hreq

end Sys2Proof.Machine
end

