-- ==== Sys2Proof/Laws/PerInstr.lean ====
section
/-! SUPPORT. One family of facts, instruction by instruction: each has an encoding exactly where it is well-formed, a
wire command as the bytes of one command write and a request as a request word. -/

namespace Sys2Proof.Laws.HasItsEncoding

open Sys2Proof Sys2Proof.Machine

/-- R60, R66, R71: an instruction is encoded exactly where its operands fit, in the form of its kind. -/
def Statement (i : Instr) : Prop :=
  (i.WellFormed ↔ (encode i).isSome = true) ∧
  ∀ c, encode i = some c →
    (i.isRequest = false ∧ ∃ bytes, c = .command bytes ∧ 1 ≤ bytes.length ∧ bytes.length ≤ 2) ∨
    (i.isRequest = true ∧ ∃ w src, c = .request w src)

/-- A command whose constructor gives its bytes exactly where it is well-formed. -/
theorem of_command {i : Instr} (h : i.isRequest = false) (hs : i.command.isSome = i.wf)
    (hl : ∀ bytes, i.command = some bytes → 1 ≤ bytes.length ∧ bytes.length ≤ 2) : Statement i := by
  refine ⟨by rw [encode_command h]; simp [hs], fun c hc => .inl ⟨h, ?_⟩⟩
  rw [encode_command h, Option.map_eq_some_iff] at hc
  obtain ⟨bytes, hb, rfl⟩ := hc
  exact ⟨bytes, rfl, hl bytes hb⟩

/-- A command with no operand. -/
theorem of_plain {i : Instr} {b : Byte} (h : i.isRequest = false) (hc : i.command = some [b]) (hw : i.wf = true) :
    Statement i := of_command h (by simp [hc, hw]) (by simp [hc])

/-- A request whose word exists exactly where it is well-formed. -/
theorem of_request {i : Instr} (h : i.isRequest = true) (hw : i.wf = (encode i).isSome)
    (hc : ∀ c, encode i = some c → ∃ w src, c = .request w src) : Statement i :=
  ⟨by rw [Instr.WellFormed, hw], fun c h' => .inr ⟨h, hc c h'⟩⟩

theorem bias19 : Statement .bias19 := of_plain rfl rfl rfl

theorem bias17 : Statement .bias17 := of_plain rfl rfl rfl

theorem segNormal : Statement .segNormal := of_plain rfl rfl rfl

theorem segReverse : Statement .segReverse := of_plain rfl rfl rfl

theorem comNormal : Statement .comNormal := of_plain rfl rfl rfl

theorem comReverse : Statement .comReverse := of_plain rfl rfl rfl

theorem resRatio (r : Nat) : Statement (.resRatio r) := of_command rfl
    (by simp only [Instr.command, Cmd.resRatio, Instr.wf]; split <;> simp_all)
    (by intro bytes hb; simp only [Instr.command, Cmd.resRatio] at hb; split at hb <;> simp_all; simp [← hb])

theorem setVolume (v : Nat) : Statement (.setVolume v) := of_command rfl
    (by simp only [Instr.command, Cmd.setVolume, Instr.wf]; split <;> simp_all)
    (by intro bytes hb; simp only [Instr.command, Cmd.setVolume] at hb; split at hb <;> simp_all; simp [← hb])

theorem pwrCtrl2C : Statement .pwrCtrl2C := of_plain rfl rfl rfl

theorem pwrCtrl2E : Statement .pwrCtrl2E := of_plain rfl rfl rfl

theorem pwrCtrl2F : Statement .pwrCtrl2F := of_plain rfl rfl rfl

theorem startLine (l : Nat) : Statement (.startLine l) := of_command rfl
    (by simp only [Instr.command, Cmd.startLine, Instr.wf]; split <;> simp_all)
    (by intro bytes hb; simp only [Instr.command, Cmd.startLine] at hb; split at hb <;> simp_all; simp [← hb])

theorem pageAddr (p : Nat) : Statement (.pageAddr p) := of_command rfl
    (by simp only [Instr.command, Cmd.pageAddr, Instr.wf]; split <;> simp_all)
    (by intro bytes hb; simp only [Instr.command, Cmd.pageAddr] at hb; split at hb <;> simp_all; simp [← hb])

theorem colLo (c : Nat) : Statement (.colLo c) := of_command rfl
    (by simp only [Instr.command, Cmd.colLo, Instr.wf]; split <;> simp_all)
    (by intro bytes hb; simp only [Instr.command, Cmd.colLo] at hb; split at hb <;> simp_all; simp [← hb])

theorem colHi (c : Nat) : Statement (.colHi c) := of_command rfl
    (by simp only [Instr.command, Cmd.colHi, Instr.wf]; split <;> simp_all)
    (by intro bytes hb; simp only [Instr.command, Cmd.colHi] at hb; split at hb <;> simp_all; simp [← hb])

theorem displayOn : Statement .displayOn := of_plain rfl rfl rfl

theorem displayOff : Statement .displayOff := of_plain rfl rfl rfl

theorem swReset : Statement .swReset := of_plain rfl rfl rfl

theorem init : Statement .init := of_request rfl rfl (by rintro c ⟨⟩; exact ⟨_, _, rfl⟩)

theorem reset : Statement .reset := of_request rfl rfl (by rintro c ⟨⟩; exact ⟨_, _, rfl⟩)

theorem clear : Statement .clear := of_request rfl rfl (by rintro c ⟨⟩; exact ⟨_, _, rfl⟩)

theorem setPixel (x y : Nat) (on : Bool) : Statement (.setPixel x y on) := of_request rfl
    (by simp only [Instr.wf, encode]; split <;> simp_all)
    (by intro c hc; simp only [encode] at hc; split at hc; exacts [⟨_, _, (Option.some.inj hc).symm⟩, by cases hc])

theorem draw (src : List Byte) : Statement (.draw src) := of_request rfl rfl (by rintro c ⟨⟩; exact ⟨_, _, rfl⟩)

theorem boundedDraw (src : List Byte) (x0 y0 x1 y1 : Nat) : Statement (.boundedDraw src x0 y0 x1 y1) := of_request rfl
    (by simp only [Instr.wf, encode]; split <;> simp_all)
    (by intro c hc; simp only [encode] at hc; split at hc; exacts [⟨_, _, (Option.some.inj hc).symm⟩, by cases hc])

theorem flush : Statement .flush := of_request rfl rfl (by rintro c ⟨⟩; exact ⟨_, _, rfl⟩)

theorem intoBuffered : Statement .intoBuffered := of_request rfl rfl (by rintro c ⟨⟩; exact ⟨_, _, rfl⟩)

end Sys2Proof.Laws.HasItsEncoding
end

