-- ==== Sys2Proof/Laws/Pixel.lean ====
section
/-! SUPPORT. Where a pixel lies and what one SET_PIXEL changes. -/

namespace Sys2Proof.Machine

theorem indexOf_eq (x y : Nat) : indexOf x y = y / 8 * 128 + x := rfl

theorem bitOf_eq (y : Nat) : bitOf y = y % 8 := rfl

theorem bitOf_lt (y : Nat) : bitOf y < 8 := Nat.mod_lt _ (by decide)

/-- R42: the index of a pixel on the display is within the framebuffer. -/
theorem indexOf_lt {x y : Nat} (hx : x < 128) (hy : y < 64) : indexOf x y < 1024 := by
  rw [indexOf_eq]; omega

/-- R43: two pixels of one byte and one bit are one pixel. -/
theorem indexOf_inj {x y x' y' : Nat} (hx : x < 128) (hx' : x' < 128) (hi : indexOf x y = indexOf x' y')
    (hb : bitOf y = bitOf y') : x = x' ∧ y = y' := by
  rw [indexOf_eq, indexOf_eq] at hi
  rw [bitOf_eq, bitOf_eq] at hb
  omega

/-- R141: replacing a bit of a byte sets that bit and leaves the other seven. -/
theorem replaceBit_getLsbD (b : Byte) (v : Bool) {k j : Nat} (hk : k < 8) (hj : j < 8) :
    (replaceBit b k v).getLsbD j = if j = k then v else b.getLsbD j := by
  have h : ∀ j < 8, ∀ k < 8, ((1 : Byte) <<< k).getLsbD j = decide (j = k) := by decide
  have hv : ∀ v : Bool, ∀ j < 8, ∀ k < 8,
      ((BitVec.ofBool v).zeroExtend 8 <<< k).getLsbD j = (decide (j = k) && v) := by decide
  unfold replaceBit
  rw [BitVec.getLsbD_or, BitVec.getLsbD_and, BitVec.getLsbD_not, h j hj k hk, hv v j hj k hk]
  by_cases hjk : j = k <;> simp [hjk, hj]

/-- R141: the framebuffer after SET_PIXEL, byte by byte. -/
theorem read_setPixel {m : Memory} (h : m.wf = true) (x y a : Nat) (v : Bool) :
    (setPixel m x y v).read a =
      if a = indexOf x y then replaceBit (m.read (indexOf x y)) (bitOf y) v else m.read a :=
  read_write h _ _ _

theorem wf_setPixel {m : Memory} (h : m.wf = true) {x y : Nat} (hx : x < 128) (hy : y < 64) (v : Bool) :
    (setPixel m x y v).wf = true :=
  wf_write h (indexOf_lt hx hy) _

end Sys2Proof.Machine
end

