-- ==== Sys2Proof/Laws/Step.lean ====
section
/-! SUPPORT. What taking a request from its port changes, what a request under way does in one step, and everything a
step can do. -/

namespace Sys2Proof.Machine

/-- The state `s'` is `s` but for what was taken from the request port. -/
structure SameButPorts (s s' : State) : Prop where
  mode     : s'.mode = s.mode
  fb       : s'.fb = s.fb
  trace    : s'.trace = s.trace
  rpc      : s'.rpc = s.rpc
  refused  : s'.refused = s.refused
  faulted  : s'.faulted = s.faulted
  seq      : s'.seq = s.seq
  answers  : s'.answers = s.answers
  response : s'.response = s.response

/-- What a fetch that runs a request took. -/
theorem fetch_run {s s' : State} {i : Instr} (h : fetch s = .run i s') :
    ∃ item rest, s.port = item :: rest ∧ item.request = .ok i ∧ s' = { s with port := rest } := by
  unfold fetch at h
  repeat' split at h
  all_goals first | (injection h with h1 h2; subst h1; exact ⟨_, _, ‹_›, ‹_›, h2.symm⟩) | cases h

/-- What a fetch that rejects a word took. -/
theorem fetch_reject {s s' : State} {r : RefusalReason} (h : fetch s = .reject r s') :
    ∃ item rest, s.port = item :: rest ∧ item.request = .error r ∧ s' = { s with port := rest } := by
  unfold fetch at h
  repeat' split at h
  all_goals first | (injection h with h1 h2; subst h1; exact ⟨_, _, ‹_›, ‹_›, h2.symm⟩) | cases h

theorem samePorts (s : State) (rest : List PortItem) : SameButPorts s { s with port := rest } :=
  ⟨rfl, rfl, rfl, rfl, rfl, rfl, rfl, rfl, rfl⟩

/-- An item of the request port is one of the eight requests. -/
theorem request_isRequest {item : PortItem} {i : Instr} (h : item.request = .ok i) : i.isRequest = true := by
  cases item with
  | abstract r => cases r <;> (injection h with h; subst h; rfl)
  | word w src =>
    simp only [PortItem.request] at h
    split at h
    · rename_i i' hd
      injection h with h
      subst h
      unfold decodeRequest at hd
      split at hd
      · rename_i row hrow
        have := List.mem_of_find?_eq_some hrow
        injection hd with hd
        subst hd
        simp only [requestRows, List.mem_cons, List.not_mem_nil, or_false] at this
        rcases this with rfl | rfl | rfl | rfl | rfl | rfl | rfl | rfl <;> rfl
      · cases hd
    · cases h

/-! ## The request under way -/

/-- What a request sends is within the display, and the request run whole ends as the list of those writes ends. -/
theorem jobOf_spec {s : State} {i : Instr} {j : Job} (h : jobOf s i = some j) :
    j.ok ∧ j.source.full ∧ exec i s = .next (emitAll j.writes s).finish ∧
      ((i = .init ∧ j = .init) ∨ (i = .reset ∧ j = .reset) ∨ ∃ source rect, j = .flush source rect) := by
  cases i with
  | init => injection h with h; subst h; exact ⟨trivial, trivial, exec_init s, .inl ⟨rfl, rfl⟩⟩
  | reset => injection h with h; subst h; exact ⟨trivial, trivial, exec_reset s, .inr (.inl ⟨rfl, rfl⟩)⟩
  | draw src =>
    simp only [jobOf] at h
    split at h
    · rename_i hl
      injection h with h; subst h
      exact ⟨valid_whole, hl, by rw [exec_draw, if_pos hl]; rfl, .inr (.inr ⟨_, _, rfl⟩)⟩
    · cases h
  | boundedDraw src x0 y0 x1 y1 =>
    simp only [jobOf] at h
    split at h
    · rename_i hl
      simp only [Bool.and_eq_true, decide_eq_true_eq] at hl
      injection h with h; subst h
      exact ⟨hl.1, hl.2, by rw [exec_boundedDraw, if_pos ((valid_iff _).1 hl.1), if_pos hl.2]; rfl,
        .inr (.inr ⟨_, _, rfl⟩)⟩
    · cases h
  | flush =>
    simp only [jobOf] at h
    split at h
    · rename_i hm
      cases hfb : s.fb with
      | none => simp [hfb] at h
      | some m =>
        simp only [hfb, Option.map_some] at h
        injection h with h; subst h
        exact ⟨valid_whole, trivial, by rw [exec_flush hm hfb]; rfl, .inr (.inr ⟨_, _, rfl⟩)⟩
    · cases h
  | _ => cases h

/-- The request under way is the one at the head of the request port. -/
theorem underWay_spec {s : State} {j : Job} (h : underWay s = some j) :
    ∃ item rest i, s.port = item :: rest ∧ item.request = .ok i ∧ jobOf s i = some j := by
  unfold underWay at h
  repeat' split at h
  all_goals first | exact ⟨_, _, _, ‹_›, ‹_›, h⟩ | cases h

/-- The request under way depends on the request port, the mode and the framebuffer alone. -/
theorem underWay_congr {s t : State} (hp : t.port = s.port) (hm : t.mode = s.mode) (hf : t.fb = s.fb) :
    underWay t = underWay s := by
  have hj : ∀ i, jobOf t i = jobOf s i := by intro i; cases i <;> simp only [jobOf, hm, hf]
  unfold underWay
  rw [hp]
  split <;> [rfl; (split <;> [exact hj _; rfl])]

/-- One step of a request under way makes the one write that is due and moves on. -/
theorem goOn_write {j : Job} (h : j.ok) {q : Sequencer} (hq : q ∈ j.positions) (s : State) :
    ∃ w ∈ j.writes, (j.due q).write = some w ∧
      goOn j q s = .next (moveOn j q (emitWrite w.1 w.2 s).afterWrite) := by
  obtain ⟨w, hw, hdue⟩ := due_mem_writes h hq
  refine ⟨w, hw, hdue, ?_⟩
  have he := emitDue_of_write hdue s
  unfold goOn
  cases hd : j.due q with
  | data bytes => rw [hd] at he; rw [← he]; rfl
  | command i =>
    rw [hd] at he hdue
    have hr : i.isRequest = false := by cases i <;> first | rfl | cases hdue
    simp only [exec_command hr, thenMoveOn, ← he]
    rfl

/-- What a step that goes on with a request leaves, with its one write answered `ok`: the next position, or `Ok`. -/
theorem moveOn_ok (j : Job) (q : Sequencer) {s : State} (hs : s.seq = some q) (k : WriteKind) (bytes : List Byte) :
    moveOn j q (s.record k bytes .ok) = match j.advance q with
      | some q' => { s.record k bytes .ok with seq := some q' }
      | none => (endRequest .ok (s.record k bytes .ok)).leavePort := by
  cases h : j.advance q <;> simp only [moveOn, record_seq, hs, h]

/-- Everything a step that ends in a next state can do: it makes one write of the request under way, it waits, it runs
a request, or it ends what spells none. -/
theorem step_cases {s t : State} (h : step s = .next t) :
    s.refused = none ∧ s.faulted = none ∧
      ((∃ q j, s.seq = some q ∧ underWay s = some j ∧ q ∈ j.positions ∧ goOn j q s = .next t) ∨
        (s.seq = none ∧ ((fetch s = .idle ∧ t = s) ∨ (∃ i s', fetch s = .run i s' ∧ exec i s' = .next t) ∨
          ∃ r s', fetch s = .reject r s' ∧ t = endRequest (.refused r) s'))) := by
  unfold step at h
  cases h1 : s.refused with
  | some r => simp [h1] at h
  | none =>
    cases h2 : s.faulted with
    | some r => simp [h1, h2] at h
    | none =>
      refine ⟨rfl, rfl, ?_⟩
      cases h3 : s.seq with
      | some q =>
        simp only [h1, h2, h3, resume] at h
        cases hj : underWay s with
        | none => simp [hj] at h
        | some j =>
          by_cases hq : q ∈ j.positions
          · exact .inl ⟨q, j, rfl, rfl, hq, by simpa [hj, hq] using h⟩
          · simp [hj, hq] at h
      | none =>
        refine .inr ⟨rfl, ?_⟩
        simp only [h1, h2, h3] at h
        cases hf : fetch s with
        | idle => exact .inl ⟨rfl, by simp [hf] at h; exact h.symm⟩
        | run i s' => exact .inr (.inl ⟨i, s', rfl, by simpa [hf] using h⟩)
        | reject r s' => exact .inr (.inr ⟨r, s', rfl, by simp [hf] at h; exact h.symm⟩)

/-- A step of a running state with no request under way that has a request at the head of its port. -/
theorem step_run {s : State} (h : s.Running) (hs : s.seq = none) {item rest i} (hp : s.port = item :: rest)
    (hi : item.request = .ok i) : step s = exec i { s with port := rest } := by
  simp [step, h.1, h.2, hs, fetch, hp, hi]

/-- A step of a running state with a request under way. -/
theorem step_goOn {s : State} (h : s.Running) {q j} (hs : s.seq = some q) (hj : underWay s = some j)
    (hq : q ∈ j.positions) : step s = goOn j q s := by
  simp [step, h.1, h.2, hs, resume, hj, hq]

/-! ## What a list of writes leaves alone -/

/-- The fields that transport writes do not touch, and how the request ends. -/
structure WritesLeave (s t : State) : Prop where
  mode     : t.mode = s.mode
  fb       : t.fb = s.fb
  refused  : t.refused = s.refused
  faulted  : t.faulted = s.faulted
  port     : t.port = s.port
  trace    : ∃ es, t.trace = s.trace ++ es

theorem writes_leave (ws : List Write) (s : State) : WritesLeave s (emitAll ws s).finish := by
  rcases finish_cases ws s with ⟨_, h⟩ | ⟨us, w, e, _, h⟩ <;> rw [h]
  · exact ⟨rfl, rfl, rfl, rfl, rfl, _, rfl⟩
  · exact ⟨rfl, rfl, rfl, rfl, rfl, okEntries us ++ [⟨w.1, w.2, .err e⟩], by simp [State.failedAt]⟩

/-- A request that makes writes completes: `Ok`, or the transport's error. -/
theorem writes_response (ws : List Write) (s : State) :
    (emitAll ws s).finish.rpc = s.rpc + 1 ∧ ((emitAll ws s).finish.response = some .ok ∨
      ∃ e, (emitAll ws s).finish.response = some (.transportFailure e)) := by
  rcases finish_cases ws s with ⟨_, h⟩ | ⟨us, w, e, _, h⟩ <;> rw [h]
  · exact ⟨rfl, .inl rfl⟩
  · exact ⟨rfl, .inr ⟨e, rfl⟩⟩

/-- A wire command leaves mode, framebuffer, the mark `refused` and the request port alone. -/
theorem command_leaves (c : Option (List Byte)) (s : State) :
    (emitCommand c s).afterWrite.mode = s.mode ∧ (emitCommand c s).afterWrite.fb = s.fb ∧
      (emitCommand c s).afterWrite.refused = s.refused ∧ (emitCommand c s).afterWrite.port = s.port ∧
      ∃ es, (emitCommand c s).afterWrite.trace = s.trace ++ es := by
  cases c with
  | none => exact ⟨rfl, rfl, rfl, rfl, [], by simp [afterWrite_none, State.faultedFor]⟩
  | some bytes =>
    cases h : s.answer .cmd bytes with
    | ok => rw [afterWrite_ok h]; exact ⟨rfl, rfl, rfl, rfl, _, rfl⟩
    | err e =>
      rw [afterWrite_err h]
      exact ⟨rfl, rfl, rfl, rfl, [⟨.cmd, bytes, .err e⟩], by simp [State.failedAt, okEntries]⟩

/-- What the step of a request under way leaves of a state: the trace gains its one write, and mode, framebuffer and
marks stay. -/
theorem goOn_leaves {j : Job} (h : j.ok) {q : Sequencer} (hq : q ∈ j.positions) {s t : State} (hs : s.seq = some q)
    (ht : goOn j q s = .next t) :
    ∃ w ∈ j.writes, t.trace = s.trace ++ [⟨w.1, w.2, s.answer w.1 w.2⟩] ∧ t.mode = s.mode ∧ t.fb = s.fb ∧
      t.refused = s.refused ∧ t.faulted = s.faulted := by
  obtain ⟨w, hw, -, hg⟩ := goOn_write h hq s
  rw [hg] at ht
  injection ht with ht
  subst ht
  refine ⟨w, hw, ?_⟩
  rcases emitWrite_cases w.1 w.2 s with ⟨ha, he⟩ | ⟨e, ha, he⟩
  · rw [he, ha]
    simp only [Progress.afterWrite, moveOn_ok j q hs]
    cases j.advance q <;> simp
  · rw [he, ha]
    simp [Progress.afterWrite, moveOn]

end Sys2Proof.Machine
end

