-- ==== Sys2Proof/Laws/Trace.lean ====
section
/-! SUPPORT. The writes a request makes: that they are legal, how many there are, what the trace decoder reads from
them, and where the sequencer stands when one of them fails. -/

namespace Sys2Proof.Machine

theorem okEntries_append (ws vs : List Write) : okEntries (ws ++ vs) = okEntries ws ++ okEntries vs := by
  simp [okEntries]

/-- Whether the transport answers `ok` depends on the trace and the script alone. -/
theorem answersOk_congr {s s' : State} (ht : s'.trace = s.trace) (ha : s'.answers = s.answers) (ws : List Write) :
    AnswersOk ws s' ↔ AnswersOk ws s := by
  induction ws generalizing s s' with
  | nil => simp
  | cons w ws ih => exact and_congr (by simp only [State.answer, ht, ha]) (ih (by simp [ht]) (by simp [ha]))

/-! ## What the commands of a region flush decode to -/

theorem decode_pageAddr : ∀ p < 8, decodeCommand [BitVec.ofNat 8 (0xB0 + p)] = .ok (.pageAddr p) := by decide

theorem decode_colLo : ∀ c < 128, decodeCommand [BitVec.ofNat 8 (c % 16)] = .ok (.colLo (c % 16)) := by decide

theorem decode_colHi : ∀ c < 128, decodeCommand [BitVec.ofNat 8 (0x10 + c / 16)] = .ok (.colHi (c / 16 * 16)) := by
  decide

/-! ## Every write is legal -/

/-- The bytes a region flush sends for one page. -/
theorem memRead_src_length {src : List Byte} (h : src.length = 1024) {r : Rect} (hx1 : r.x1 < 128)
    {p : Nat} (hp : p < 8) : (memRead (.src src) (p * 128 + r.x0) r.columns).length = r.x1 + 1 - r.x0 := by
  simp [memRead, h, Rect.columns]
  omega

theorem memRead_fb_length (m : Memory) (a n : Nat) : (memRead (.fb m) a n).length = n := by simp [memRead]

theorem memRead_zero_length (a n : Nat) : (memRead .zero a n).length = n := by simp [memRead]

/-- A write of a region flush is one of the four of one of its pages. -/
theorem mem_flushWrites {source : Source} {r : Rect} {w : Write} (hv : r.valid = true) (hw : w ∈ flushWrites source r) :
    ∃ p < 8, w ∈ pageWrites source r p := by
  obtain ⟨hle, h7, hcount⟩ := valid_pages hv
  simp only [flushWrites, Rect.pageList, List.mem_flatMap, List.mem_range'_1] at hw
  obtain ⟨p, hp, hw⟩ := hw
  exact ⟨p, by omega, hw⟩

theorem memRead_length {source : Source} (hs : source.full) {r : Rect} (hx1 : r.x1 < 128) {p : Nat}
    (hp : p < 8) : (memRead source (p * 128 + r.x0) r.columns).length = r.x1 + 1 - r.x0 := by
  cases source with
  | fb m => exact memRead_fb_length _ _ _
  | src bytes => exact memRead_src_length hs hx1 hp
  | zero => exact memRead_zero_length _ _

/-- R65, R67: the writes of a region flush are legal, whatever their answers. -/
theorem legal_flush {source : Source} (hs : source.full) {r : Rect} (hv : r.valid = true) :
    ∀ w ∈ flushWrites source r, ∀ a, entryLegal ⟨w.1, w.2, a⟩ := by
  intro w hw a
  obtain ⟨hx, -, hx1, -, hxx, -⟩ := (valid_iff r).1 hv
  obtain ⟨p, hp, hw⟩ := mem_flushWrites hv hw
  simp only [pageWrites, List.mem_cons, List.not_mem_nil, or_false] at hw
  rcases hw with rfl | rfl | rfl | rfl
  · exact ⟨_, decode_pageAddr p hp⟩
  · exact ⟨_, decode_colLo _ hx⟩
  · exact ⟨_, decode_colHi _ hx⟩
  · have := memRead_length hs hx1 hp
    exact ⟨by simp only [Config.width]; omega, by simp only [Config.width]; omega⟩

/-- R8, R194: the first nine writes of INIT are legal for every choice of its parameters. -/
theorem legal_initFirst : ∀ w ∈ initFirstWrites, ∀ a, entryLegal ⟨w.1, w.2, a⟩ := by
  have ratio : ∀ r < 8, decodeCommand [BitVec.ofNat 8 (0x20 + r)] = .ok (.resRatio r) := by decide
  have bias : ∀ b, ∃ i, decodeCommand [biasByte b] = .ok i := fun b => by cases b <;> exact ⟨_, rfl⟩
  have seg : ∀ d, ∃ i, decodeCommand [segByte d] = .ok i := fun d => by cases d <;> exact ⟨_, rfl⟩
  have com : ∀ d, ∃ i, decodeCommand [comByte d] = .ok i := fun d => by cases d <;> exact ⟨_, rfl⟩
  have stage : ∀ p, ∃ i, decodeCommand [stageByte p] = .ok i := fun p => by cases p <;> exact ⟨_, rfl⟩
  intro w hw a
  simp only [initFirstWrites, List.mem_cons, List.not_mem_nil, or_false] at hw
  rcases hw with rfl | rfl | rfl | rfl | rfl | rfl | rfl | rfl | rfl
  exacts [bias _, seg _, com _, ⟨_, ratio _ Config.pRatio.isLt⟩, ⟨_, rfl⟩, stage _, stage _, stage _, ⟨_, rfl⟩]

theorem legal_init : ∀ w ∈ initWrites, ∀ a, entryLegal ⟨w.1, w.2, a⟩ := by
  intro w hw a
  rcases List.mem_append.1 hw with hw | hw
  · rcases List.mem_append.1 hw with hw | hw
    · exact legal_initFirst w hw a
    · exact legal_flush (source := .zero) trivial valid_whole w hw a
  · simp only [List.mem_singleton] at hw
    subst hw
    exact ⟨_, rfl⟩

/-- Every write of a request that passed its checks is legal. -/
theorem legal_job {j : Job} (h : j.ok) (hf : j.source.full) : ∀ w ∈ j.writes, ∀ a, entryLegal ⟨w.1, w.2, a⟩ := by
  cases j with
  | init => exact legal_init
  | reset =>
    intro w hw a
    simp only [Job.writes, List.mem_singleton] at hw
    subst hw
    exact ⟨_, rfl⟩
  | flush source rect => exact legal_flush hf h

/-! ## How many writes there are -/

/-- R167: the writes of `n` pages from page `p` on, counted. -/
theorem pages_count (source : Source) (r : Rect) (len n p : Nat)
    (hl : ∀ q < p + n, (memRead source (q * 128 + r.x0) r.columns).length = len) :
    (okEntries ((List.range' p n).flatMap (pageWrites source r))).length = 4 * n ∧
    ((okEntries ((List.range' p n).flatMap (pageWrites source r))).filter (fun e => e.kind = .cmd)).length = 3 * n ∧
    ((okEntries ((List.range' p n).flatMap (pageWrites source r))).filter (fun e => e.kind = .data)).length = n ∧
    (∀ e ∈ okEntries ((List.range' p n).flatMap (pageWrites source r)), e.kind = .cmd → e.bytes.length = 1) ∧
    (∀ e ∈ okEntries ((List.range' p n).flatMap (pageWrites source r)), e.kind = .data → e.bytes.length = len) := by
  induction n generalizing p with
  | zero => simp [okEntries]
  | succ n ih =>
    obtain ⟨i1, i2, i3, i4, i5⟩ := ih (p + 1) (fun q hq => hl q (by omega))
    have hp := hl p (by omega)
    simp only [List.range'_succ, List.flatMap_cons, okEntries_append, List.length_append, List.filter_append, i1, i2, i3]
    refine ⟨by simp [okEntries, pageWrites]; omega, by simp [okEntries, pageWrites]; omega,
      by simp [okEntries, pageWrites]; omega, fun e he => ?_, fun e he => ?_⟩
    · rcases List.mem_append.1 he with he | he
      · simp only [okEntries, pageWrites, List.map_cons, List.map_nil, List.mem_cons, List.not_mem_nil, or_false] at he
        rcases he with rfl | rfl | rfl | rfl <;> simp
      · exact i4 e he
    · rcases List.mem_append.1 he with he | he
      · simp only [okEntries, pageWrites, List.map_cons, List.map_nil, List.mem_cons, List.not_mem_nil, or_false] at he
        rcases he with rfl | rfl | rfl | rfl <;> simp [hp]
      · exact i5 e he

/-! ## What the trace decoder reads -/

/-- R170: what a data write of `bytes` from column `c0` of page `p` on leaves in the map. -/
theorem store_at (map : PageMap) (p c0 : Nat) (bytes : List Byte) (q c : Nat) :
    (map.store p c0 bytes).at q c =
      if q = p ∧ c0 ≤ c ∧ c < c0 + bytes.length then bytes[c - c0]? else map.at q c := by
  induction bytes generalizing map c0 with
  | nil => rw [if_neg (by simp)]; rfl
  | cons b bytes ih =>
    rw [PageMap.store, ih]
    by_cases h : q = p ∧ c0 + 1 ≤ c ∧ c < c0 + 1 + bytes.length
    · rw [if_pos h, if_pos ⟨h.1, by omega, by simp; omega⟩, show c - c0 = (c - (c0 + 1)) + 1 by omega]
      rfl
    · rw [if_neg h]
      by_cases hc : (p, c0) = (q, c)
      · obtain ⟨rfl, rfl⟩ := Prod.mk.inj hc
        simp [PageMap.at]
      · rw [PageMap.at, if_neg hc, if_neg]
        rintro ⟨rfl, h2, h3⟩
        rw [List.length_cons] at h3
        exact hc (by rw [Prod.mk.injEq]; exact ⟨rfl, by by_contra hne; exact h ⟨rfl, by omega, by omega⟩⟩)

/-- R170, R171: the decoder over the writes of `n` pages, in any state of its address registers. -/
theorem decodeFrom_pages (source : Source) (r : Rect) (hx0 : r.x0 < 128) (n p : Nat) (hp : p + n ≤ 8) (map : PageMap)
    (rest : List TraceEntry) (a : Address) :
    ∃ map', decodeFrom a map (okEntries ((List.range' p n).flatMap (pageWrites source r)) ++ rest) =
        decodeFrom (if n = 0 then a else Address.unset) map' rest ∧
      ∀ q c, map'.at q c =
        if p ≤ q ∧ q < p + n ∧ r.x0 ≤ c ∧ c < r.x0 + (memRead source (q * 128 + r.x0) r.columns).length then
          (memRead source (q * 128 + r.x0) r.columns)[c - r.x0]?
        else map.at q c := by
  induction n generalizing p map a with
  | zero => exact ⟨map, by simp [okEntries], fun q c => by rw [if_neg (by omega)]⟩
  | succ n ih =>
    obtain ⟨map', h1, h2⟩ :=
      ih (p + 1) (by omega) (map.store p r.x0 (memRead source (p * 128 + r.x0) r.columns)) Address.unset
    refine ⟨map', ?_, fun q c => ?_⟩
    · rw [List.range'_succ, List.flatMap_cons, okEntries_append, List.append_assoc]
      simp only [okEntries, pageWrites, List.map_cons, List.map_nil, List.cons_append, List.nil_append, decodeFrom,
        Address.command, decode_pageAddr p (by omega), decode_colLo _ hx0, decode_colHi _ hx0]
      rw [show r.x0 / 16 * 16 / 16 * 16 + r.x0 % 16 = r.x0 by omega]
      simpa [okEntries] using h1
    · rw [h2, store_at]
      by_cases hq : q = p
      · subst hq
        rw [if_neg (by omega)]
        by_cases hc : r.x0 ≤ c ∧ c < r.x0 + (memRead source (q * 128 + r.x0) r.columns).length
        · rw [if_pos ⟨rfl, hc⟩, if_pos ⟨by omega, by omega, hc⟩]
        · rw [if_neg (fun h => hc h.2), if_neg (fun h => hc h.2.2)]
      · rw [if_neg (fun h : q = p ∧ _ => hq h.1)]
        by_cases hc : p + 1 ≤ q ∧ q < p + 1 + n ∧ r.x0 ≤ c ∧
            c < r.x0 + (memRead source (q * 128 + r.x0) r.columns).length
        · rw [if_pos hc, if_pos ⟨by omega, by omega, hc.2.2⟩]
        · rw [if_neg hc, if_neg]
          rintro ⟨a1, a2, a3⟩
          exact hc ⟨by omega, by omega, a3⟩

/-! ## A script that fails -/

/-- A script of `n` answers `ok` and then `err e` fails the write that follows the first `n`. -/
theorem failsAt_of_script {ws : List Write} {s : State} {n : Nat} {e : TransportError} {rest : List Answer}
    (h : s.answers = List.replicate n .ok ++ .err e :: rest) (hn : n < ws.length) : FailsAt ws s (ws.take n) ws[n] e := by
  refine ⟨⟨ws.drop (n + 1), by rw [← List.drop_eq_getElem_cons hn, List.take_append_drop]⟩,
    answersOk_of_script _ _ n _ h (by simp), ?_⟩
  have hlen : (ws.take n).length = n := by simp; omega
  simp [State.wrote, State.answer, h, hlen]

/-! ## Where the sequencer stands at a failing write -/

/-- R169: at the first write answered `err` the run ends, and the position in the state is that write's. -/
theorem runSequencer_fails {j : Job} {qs qs' : List Sequencer} {q : Sequencer} {us : List Write} {w : Write} {e}
    (hc : Chain j none (qs ++ q :: qs')) (hw : Writes j qs us) (hq : (j.due q).write = some w) (s : State)
    (hok : AnswersOk us s) (he : (s.wrote us).answer w.1 w.2 = .err e) (k : Nat) :
    ∃ t, runSequencer j (qs.length + (k + 1)) { s with seq := (qs ++ [q]).head? } = .ended (.transportFailure e) t ∧
      t.trace = s.trace ++ okEntries us ++ [⟨w.1, w.2, .err e⟩] ∧ t.seq = some q := by
  induction qs generalizing us s with
  | nil =>
    obtain rfl : us = [] := by simpa [Writes] using hw
    refine ⟨({ s with seq := some q } : State).record w.1 w.2 (.err e), ?_, by simp [okEntries], by simp⟩
    simp only [List.length_nil, List.nil_append, List.head?_cons, runSequencer]
    rw [emitDue_of_write hq, emitWrite_err (s := { s with seq := some q }) (by simpa using he)]
    rfl
  | cons a qs ih =>
    cases us with
    | nil => simp [Writes] at hw
    | cons u us =>
      simp only [Writes, List.map_cons, List.cons.injEq] at hw
      have ha : j.advance a = (qs ++ [q]).head? := by
        have := hc.1
        cases qs <;> simpa using this
      obtain ⟨t, h1, h2, h3⟩ := ih hc.2 hw.2 (s.record u.1 u.2 .ok) hok.2 (by simpa [wrote_cons] using he)
      refine ⟨t, ?_, by simpa [okEntries] using h2, h3⟩
      rw [List.length_cons, List.cons_append, List.head?_cons,
        show qs.length + 1 + (k + 1) = (qs.length + (k + 1)) + 1 by omega]
      simp only [runSequencer]
      rw [emitDue_of_write hw.1, emitWrite_ok (s := { s with seq := some a }) hok.1, bind_going, ha]
      exact h1

end Sys2Proof.Machine
end

