-- ==== Sys2Proof/Tests/Slice0.lean ====
section
/-! SUPPORT. Tests: what the checks of well-formedness refuse, the words of every instruction written out from the
spec's encodings, one step of each instruction with the result the spec's test vectors give, and for every statement
with hypotheses a state and operands that meet them. Expected results are the spec's own: the tables E2.1 to F2.6 and
the programs P1 to P5 of 95_test_vectors.md, named at each test. -/

namespace Sys2Proof.Tests

open Sys2Proof Sys2Proof.Machine

/-! ## Helpers -/

/-- A transport error. -/
def errE : TransportError := ⟨7⟩

/-- After power-on, with a transport that answers the next 42 writes `ok`. -/
def okState : State := { State.reset with answers := List.replicate 42 .ok }

/-- In Buffered mode over the framebuffer `m`, the next 42 writes answered `ok`. -/
def bufState (m : Memory) : State := { okState with mode := .buffered, fb := some m }

/-- After power-on, `n` writes answered `ok` and the next one `err`. -/
def failState (n : Nat) : State := { State.reset with answers := List.replicate n .ok ++ [.err errE] }

/-- In Buffered mode over an empty framebuffer, `n` writes answered `ok` and the next one `err`. -/
def bufFailState (n : Nat) : State := { failState n with mode := .buffered, fb := some Memory.zeroed }

/-- What holds of the next state. -/
def ends (o : Host.Outcome State Fault Refusal) (p : State → Bool) : Bool :=
  match o with
  | .next t => p t
  | .fault _ => false
  | .refused _ => false

/-- A trace written as the spec writes it, every answer `ok`. -/
def isTrace (ws : List Write) (t : State) : Bool := decide (t.trace = okEntries ws)

/-- The spec's `ramp`: 1024 bytes, `ramp[i] = i mod 256`. -/
def ramp : List Byte := (List.range 1024).map (BitVec.ofNat 8)

/-- The bytes `a` to `b` of `ramp`. -/
def rampFrom (a n : Nat) : List Byte := (List.range' a n).map (BitVec.ofNat 8)

theorem ramp_length : ramp.length = 1024 := by simp [ramp]

/-! ## Ill-formed instructions -/

theorem wf_refuses_resRatio : (Instr.resRatio 8).wf = false := by decide
theorem wf_refuses_setVolume : (Instr.setVolume 64).wf = false := by decide
theorem wf_refuses_startLine : (Instr.startLine 64).wf = false := by decide
theorem wf_refuses_pageAddr : (Instr.pageAddr 8).wf = false := by decide
theorem wf_refuses_colLo : (Instr.colLo 132).wf = false := by decide
theorem wf_refuses_colHi : (Instr.colHi 132).wf = false := by decide
theorem wf_refuses_setPixel_x : (Instr.setPixel 256 0 true).wf = false := by decide
theorem wf_refuses_setPixel_y : (Instr.setPixel 0 256 true).wf = false := by decide
theorem wf_refuses_boundedDraw_x0 : (Instr.boundedDraw [] 256 0 0 0).wf = false := by decide
theorem wf_refuses_boundedDraw_y0 : (Instr.boundedDraw [] 0 256 0 0).wf = false := by decide
theorem wf_refuses_boundedDraw_x1 : (Instr.boundedDraw [] 0 0 256 0).wf = false := by decide
theorem wf_refuses_boundedDraw_y1 : (Instr.boundedDraw [] 0 0 0 256).wf = false := by decide
theorem encode_refuses_out_of_range :
    encode (.resRatio 8) = none ∧ encode (.setVolume 64) = none ∧ encode (.startLine 64) = none ∧
    encode (.pageAddr 8) = none ∧ encode (.colLo 132) = none ∧ encode (.colHi 132) = none := by decide

/-! ## Words written out: R60 to R63 and R71 to R73, bit by bit -/

theorem word_bias19 : decodeCommand [0b10100010] = .ok .bias19 := by decide
theorem word_bias17 : decodeCommand [0b10100011] = .ok .bias17 := by decide
theorem word_segNormal : decodeCommand [0b10100000] = .ok .segNormal := by decide
theorem word_segReverse : decodeCommand [0b10100001] = .ok .segReverse := by decide
theorem word_comNormal : decodeCommand [0b11000000] = .ok .comNormal := by decide
theorem word_comReverse : decodeCommand [0b11001000] = .ok .comReverse := by decide
theorem word_resRatio : decodeCommand [0b00100101] = .ok (.resRatio 5) := by decide
theorem word_setVolume : decodeCommand [0b10000001, 0b00100110] = .ok (.setVolume 38) := by decide
theorem word_pwrCtrl2C : decodeCommand [0b00101100] = .ok .pwrCtrl2C := by decide
theorem word_pwrCtrl2E : decodeCommand [0b00101110] = .ok .pwrCtrl2E := by decide
theorem word_pwrCtrl2F : decodeCommand [0b00101111] = .ok .pwrCtrl2F := by decide
theorem word_startLine : decodeCommand [0b01100110] = .ok (.startLine 38) := by decide
theorem word_pageAddr : decodeCommand [0b10110110] = .ok (.pageAddr 6) := by decide
theorem word_colLo : decodeCommand [0b00001011] = .ok (.colLo 11) := by decide
theorem word_colHi : decodeCommand [0b00010110] = .ok (.colHi 96) := by decide
theorem word_displayOn : decodeCommand [0b10101111] = .ok .displayOn := by decide
theorem word_displayOff : decodeCommand [0b10101110] = .ok .displayOff := by decide
theorem word_swReset : decodeCommand [0b11100010] = .ok .swReset := by decide
theorem word_init : decodeRequest 0x0000000000000001 [] = .ok .init := by decide
theorem word_reset : decodeRequest 0x0000000000000002 [] = .ok .reset := by decide
theorem word_clear : decodeRequest 0x0000000000000003 [] = .ok .clear := by decide
/-- P1 -/
theorem word_setPixel : decodeRequest 0x00000100003F7F04 [] = .ok (.setPixel 127 63 true) := by decide
/-- P3: `ON` is 0, and a column beyond the display is read as written. -/
theorem word_setPixel_off :
    decodeRequest 0x0000000000030304 [] = .ok (.setPixel 3 3 false) ∧
    decodeRequest 0x000001000005C804 [] = .ok (.setPixel 200 5 true) := by decide
theorem word_draw : decodeRequest 0x0000000000000005 [0xAB] = .ok (.draw [0xAB]) := by decide
/-- P2 -/
theorem word_boundedDraw : decodeRequest 0x000000170F080806 [0xAB] = .ok (.boundedDraw [0xAB] 8 8 15 23) := by decide
theorem word_flush : decodeRequest 0x0000000000000007 [] = .ok .flush := by decide
theorem word_intoBuffered : decodeRequest 0x0000000000000008 [] = .ok .intoBuffered := by decide
/-- E2.3: the reserved words of the table. -/
theorem words_reserved :
    decodeRequest 0x0000000000000100 [] = .error (.reservedWord 0x0000000000000100) ∧
    decodeRequest 0x0000000000000009 [] = .error (.reservedWord 0x0000000000000009) ∧
    decodeRequest 0x00000000000000FF [] = .error (.reservedWord 0x00000000000000FF) ∧
    decodeRequest 0x0000000000000101 [] = .error (.reservedWord 0x0000000000000101) ∧
    decodeRequest 0x8000000000000007 [] = .error (.reservedWord 0x8000000000000007) ∧
    decodeRequest 0x0000000100000004 [] = .error (.reservedWord 0x0000000100000004) ∧
    decodeRequest 0x0000020000000004 [] = .error (.reservedWord 0x0000020000000004) ∧
    decodeRequest 0x0000010000000006 [] = .error (.reservedWord 0x0000010000000006) :=
  ⟨rfl, rfl, rfl, rfl, rfl, rfl, rfl, rfl⟩
/-- E2.2: both nibbles of each column of the table. -/
theorem columns_split : ∀ r ∈ ([(0, 0x00, 0x10), (15, 0x0F, 0x10), (16, 0x00, 0x11), (37, 0x05, 0x12), (127, 0x0F, 0x17),
    (128, 0x00, 0x18), (131, 0x03, 0x18)] : List (Nat × Byte × Byte)),
    Cmd.colLo r.1 = some [r.2.1] ∧ Cmd.colHi r.1 = some [r.2.2] := by decide
/-- The opcode table's rows of 8, 16 and 64 bits, as it numbers them. -/
theorem table_words :
    decodeTableWord 8 0xA2 = some .bias19 ∧ decodeTableWord 16 0x8128 = some (.setVolume 40) ∧
    decodeTableWord 8 0x19 = none ∧ decodeTableWord 64 7 = some .flush ∧
    decodeTableWord 64 5 = some (.draw tableSrc) := by decide +kernel

/-! ## One step of each instruction -/

/-- E2.1: the plain commands, each one command write. -/
theorem step_plain : ∀ r ∈ ([(.bias19, 0xA2), (.bias17, 0xA3), (.segNormal, 0xA0), (.segReverse, 0xA1), (.comNormal, 0xC0),
    (.comReverse, 0xC8), (.pwrCtrl2C, 0x2C), (.pwrCtrl2E, 0x2E), (.pwrCtrl2F, 0x2F), (.displayOn, 0xAF),
    (.displayOff, 0xAE), (.swReset, 0xE2)] : List (Instr × Byte)),
    ends (exec r.1 okState) (isTrace [(.cmd, [r.2])]) = true := by decide
/-- E2.1, E2.2: the commands with a field. -/
theorem step_field : ∀ r ∈ ([(.resRatio 7, [0x27]), (.setVolume 63, [0x81, 0x3F]), (.startLine 63, [0x7F]),
    (.pageAddr 7, [0xB7]), (.colLo 131, [0x03]), (.colHi 131, [0x18])] : List (Instr × List Byte)),
    ends (exec r.1 okState) (isTrace [(.cmd, r.2)]) = true := by decide
/-- R112: `START_LINE 64` is no write and no alias of line 0. -/
theorem step_startLine_64 : ends (exec (.startLine 64) okState)
    (fun t => isTrace [] t && decide (t.faulted = some .commandRange)) = true := by decide
/-- F2.6 -/
theorem step_reset : ends (exec .reset okState)
    (fun t => isTrace [(.cmd, [0xE2])] t && decide (t.rpc = 1 ∧ t.response = some .ok ∧ t.mode = .directWrite)) = true := by
  decide
/-- F2.6 -/
theorem step_reset_err : ends (exec .reset (failState 0))
    (fun t => decide (t.trace = [⟨.cmd, [0xE2], .err errE⟩] ∧ t.rpc = 1 ∧ t.response = some (.transportFailure errE))) =
    true := by decide
/-- P4: INIT with every write answered `ok` makes 42 writes: the ninth `START_LINE 0`, the thirteenth page 0's zeros, the
last one DISPLAY_ON. -/
theorem step_init : ∃ t, exec .init okState = .next t ∧ t.trace.length = 42 ∧ t.trace[8]? = some ⟨.cmd, [0x40], .ok⟩ ∧
    t.trace[12]? = some ⟨.data, List.replicate 128 0x00, .ok⟩ ∧ t.trace[41]? = some ⟨.cmd, [0xAF], .ok⟩ :=
  ⟨okState.completed initWrites, by rw [exec_init, finish_ok (answersOk_of_script _ _ 42 [] rfl (by decide))],
    rfl, rfl, rfl, rfl⟩
/-- F2.6: INIT with write 5 answered `err`: five writes, the last one `[0x81, 0x28]`. -/
theorem step_init_err : ∃ t, exec .init (failState 4) = .next t ∧ t.trace.length = 5 ∧
    t.trace[4]? = some ⟨.cmd, [0x81, 0x28], .err errE⟩ ∧ t.response = some (.transportFailure errE) :=
  ⟨(failState 4).failedAt (initWrites.take 4) (.cmd, [0x81, 0x28]) errE,
    by rw [exec_init, finish_err (failsAt_of_script (n := 4) (rest := []) rfl (by decide))]; rfl, rfl, rfl, rfl⟩
/-- F2.6 -/
theorem step_intoBuffered : ends (exec .intoBuffered State.reset)
    (fun t => decide (t.mode = .buffered ∧ t.fb = some [] ∧ t.trace = [] ∧ t.rpc = 1)) = true := by decide
/-- F2.6 -/
theorem step_intoBuffered_again : ends (exec .intoBuffered (bufState []))
    (fun t => decide (t.refused = some .modeGate ∧ t.rpc = 0)) = true := by decide
/-- R140's example: `fb[133] = 0x04` before. -/
theorem step_clear : ends (exec .clear (bufState [(133, 0x04)]))
    (fun t => decide (t.fb = some [] ∧ t.response = some .ok ∧ t.trace = [])) = true := by decide
/-- F2.3 -/
theorem step_clear_refused : ends (exec .clear okState)
    (fun t => decide (t.refused = some .modeGate ∧ t.response = some (.refused .modeGate))) = true := by decide
/-- S2: the two pixels share byte 133. -/
theorem step_setPixel : ends (exec (.setPixel 5 11 true) (bufState [(133, 0x04)]))
    (fun t => decide (t.fb = some [(133, 0x0C)])) = true := by decide
/-- F2.3: the first pixel beyond the display in each axis, and the mode before the bounds. -/
theorem step_setPixel_outside :
    ends (exec (.setPixel 128 0 true) (bufState [])) (fun t => decide (t.fb = some [] ∧ t.response = some .outOfBounds)) =
      true ∧
    ends (exec (.setPixel 200 0 true) okState) (fun t => decide (t.refused = some .modeGate)) = true := by decide
/-- F2.2: the read-modify-write of one byte. -/
theorem replaceBit_table : ∀ r ∈ ([(0xFF, 3, false, 0xF7), (0x00, 7, true, 0x80), (0x04, 2, true, 0x04),
    (0xA5, 0, false, 0xA4), (0xA5, 1, true, 0xA7)] : List (Byte × Nat × Bool × Byte)),
    replaceBit r.1 r.2.1 r.2.2.1 = r.2.2.2 := by decide
/-- F2.1 -/
theorem index_table : ∀ r ∈ ([(0, 0, 0, 0), (127, 7, 7, 127), (0, 8, 0, 128), (1, 9, 1, 129), (5, 10, 2, 133),
    (64, 20, 4, 320), (127, 63, 7, 1023)] : List (Nat × Nat × Nat × Nat)),
    bitOf r.2.1 = r.2.2.1 ∧ indexOf r.1 r.2.1 = r.2.2.2 := by decide
/-- F2.4: two rows, two pages. -/
theorem step_boundedDraw : ends (exec (.boundedDraw ramp 16 7 16 8) okState)
    (isTrace [(.cmd, [0xB0]), (.cmd, [0x00]), (.cmd, [0x11]), (.data, [0x10]),
      (.cmd, [0xB1]), (.cmd, [0x00]), (.cmd, [0x11]), (.data, [0x90])]) = true := by decide +kernel
/-- F2.4: a wrong length faults, and the rectangle is checked first. -/
theorem step_boundedDraw_ends :
    ends (exec (.boundedDraw (List.replicate 1023 0) 0 0 3 3) okState)
      (fun t => isTrace [] t && decide (t.faulted = some (.srcLength 1023) ∧ t.rpc = 0)) = true ∧
    ends (exec (.boundedDraw [] 5 10 3 10) okState)
      (fun t => isTrace [] t && decide (t.response = some .outOfBounds ∧ t.faulted = none ∧ t.rpc = 1)) = true := by
  decide +kernel
/-- F2.4: the fourth write of DRAW fails. -/
theorem step_draw_err : ends (exec (.draw ramp) (failState 3))
    (fun t => decide (t.trace = [⟨.cmd, [0xB0], .ok⟩, ⟨.cmd, [0x00], .ok⟩, ⟨.cmd, [0x10], .ok⟩,
      ⟨.data, rampFrom 0 128, .err errE⟩] ∧ t.response = some (.transportFailure errE))) = true := by decide +kernel
/-- F2.4 -/
theorem step_draw_short : ends (exec (.draw []) okState)
    (fun t => isTrace [] t && decide (t.response = some .outOfBounds)) = true := by decide
/-- P1: the last page's data of FLUSH, writes 29 to 32 of 32. -/
theorem step_flush : ends (exec .flush (bufState [(0, 0x01), (129, 0x02), (1023, 0xC0)]))
    (fun t => decide (t.trace.length = 32 ∧ t.trace.drop 28 = okEntries [(.cmd, [0xB7]), (.cmd, [0x00]), (.cmd, [0x10]),
      (.data, List.replicate 127 0x00 ++ [0xC0])])) = true := by decide
/-- P5: the refused FLUSH stops the block. -/
theorem step_flush_refused : ends (exec .flush okState)
    (fun t => isTrace [] t && decide (t.refused = some .modeGate ∧ t.rpc = 0)) = true := by decide
/-- P5: the RESET that follows is not executed. -/
theorem step_stopped : step { okState with refused := some .modeGate, port := [.abstract .reset] } =
    .refused (.stopped .modeGate) := rfl

/-! ## The trace decoder, F2.5 -/

theorem decodeTrace_accepts :
    decodeTrace (okEntries [(.cmd, [0x12]), (.cmd, [0x05]), (.cmd, [0xB3]), (.data, [0xAA])]) = some [((3, 37), 0xAA)] ∧
    decodeTrace (okEntries [(.cmd, [0x81, 0x28]), (.cmd, [0xB1]), (.cmd, [0x00]), (.cmd, [0x10]), (.data, [0x07])]) =
      some [((1, 0), 0x07)] := by decide
theorem decodeTrace_refuses :
    decodeTrace (okEntries [(.data, [0xAA])]) = none ∧
    decodeTrace (okEntries [(.cmd, [0xB0]), (.cmd, [0x00]), (.cmd, [0x10]), (.data, [0x01]), (.data, [0x02])]) = none ∧
    decodeTrace [⟨.cmd, [0xB0], .err errE⟩] = none := by decide

/-! ## Witnesses

One or more for each statement with hypotheses, at the ends of the ranges its clauses speak of. -/

/-- The transport answers any write of `okState` with `ok`. -/
theorem okState_answers (k : WriteKind) (bytes : List Byte) : okState.answer k bytes = .ok := rfl

/-- The transport answers up to 42 writes of a state with `okState`'s script. -/
theorem okState_answersOk {ws : List Write} {s : State} (h : s.answers = okState.answers) (hw : ws.length ≤ 42) :
    AnswersOk ws s := answersOk_of_script ws s 42 [] (by simpa [okState] using h) hw

theorem whole_writes (source : Source) : (flushWrites source ⟨0, 0, 127, 63⟩).length = 32 := rfl

theorem init_writes : initWrites.length = 42 := rfl

theorem witness_EncodedInstructionsDecodeBack :
    (Instr.setPixel 255 255 true).WellFormed ∧ (Instr.boundedDraw ramp 255 255 255 255).WellFormed ∧
    (Instr.colHi 131).WellFormed ∧ (Instr.setVolume 63).WellFormed := by decide

theorem witness_DecodedWordsEncodeBack :
    decodeCommand [0x18] = .ok (.colHi 128) ∧
    decodeRequest 0x000001000005C804 [0xAB] = .ok (.setPixel 200 5 true) := by decide

theorem witness_RequestFieldsAreReadUnsigned :
    decodeRequest 0x000000FFFEFDFC06 [] = .ok (.boundedDraw [] 252 253 254 255) ∧
    reqOpc 0x000000FFFEFDFC06 = 0x06 ∧ reqOpc 0x00000100003F7F04 = 0x04 ∧ reqOpc 0x0000000000000001 = 0x01 ∧
    reqOpc 0x0000000000000002 = 0x02 ∧ reqOpc 0x0000000000000003 = 0x03 ∧ reqOpc 0x0000000000000005 = 0x05 ∧
    reqOpc 0x0000000000000007 = 0x07 ∧ reqOpc 0x0000000000000008 = 0x08 := by decide

theorem witness_AtMostOneRequestRowMatches :
    ∃ r ∈ requestRows, (0x0000010000090104 : Word64) &&& r.mask = r.pattern := by decide

theorem witness_UnlistedWireBytesAreRejected :
    (0x80 : Byte) ≠ 0x81 ∧ ([] : List Byte).length ≠ 1 ∧ ([] : List Byte).length ≠ 2 := by decide

theorem witness_OtherRequestsIgnoreTheSourcePort :
    decodeRequest 0x0000000000000007 [0xAB] = .ok .flush ∧ (∀ b, Instr.flush ≠ .draw b) ∧
    ∀ b x0 y0 x1 y1, Instr.flush ≠ .boundedDraw b x0 y0 x1 y1 := by
  refine ⟨by decide, ?_, ?_⟩ <;> intros <;> intro h <;> cases h

theorem witness_PlainCommandsWriteTheirByte : okState.answer .cmd [0xA2] = .ok := rfl

theorem witness_FieldCommandsWriteTheirField :
    okState.answer .cmd [BitVec.ofNat 8 (0x20 + 7)] = .ok ∧ okState.answer .cmd [0x81, BitVec.ofNat 8 63] = .ok ∧
    okState.answer .cmd [BitVec.ofNat 8 (0x10 + 131 / 16)] = .ok ∧ 7 ≤ 7 ∧ 63 ≤ 63 ∧ 131 ≤ 131 := by decide

theorem witness_OutOfRangeFieldsFault : 7 < 8 ∧ 63 < 64 ∧ 131 < 132 := by decide

theorem witness_FailedCommandEndsTheRequest :
    encode .displayOff = some (.command [0xAE]) ∧ (failState 0).answer .cmd [0xAE] = .err errE := by decide

/-- A framebuffer in canonical form that is not empty. -/
def someFb : Memory := [(0, 0x01), (133, 0x04), (1023, 0xC0)]

/-- The hypotheses of the statements on CLEAR, SET_PIXEL and FLUSH: ClearZeroesEveryByte, ClearedPixelsAreOff,
SetPixelReplacesOneBit, SetPixelHasNoCrossTalk, FramebufferRequestsAreIdempotent. -/
theorem witness_framebuffer_statements :
    (bufState someFb).mode = .buffered ∧ (bufState someFb).fb = some someFb ∧ someFb.wf = true ∧ okState.mode = .directWrite ∧
    127 < 128 ∧ 63 < 64 ∧ 128 ≤ 128 ∧ 64 ≤ 64 ∧ ((127, 62) : Nat × Nat) ≠ (127, 63) := by decide

theorem witness_SetPixelReplacesOneBit_word :
    reqOpc 0x00000100003F7F04 = 0x04 ∧ (0x00000100003F7F04 : Word64).extractLsb' 24 16 = 0 ∧
    (0x00000100003F7F04 : Word64).extractLsb' 41 23 = 0 := by decide

theorem witness_EachPixelHasItsOwnBit : 1023 < 1024 ∧ 7 < 8 ∧ indexOf 127 63 = indexOf 127 63 ∧ bitOf 63 = bitOf 63 := by
  decide

/-- RegionFlushIsThePageLoop: the largest corners, and the whole display. -/
theorem witness_RegionFlushIsThePageLoop :
    (Rect.mk 127 63 127 63).valid = true ∧ (Rect.mk 0 0 127 63).valid = true := by decide

/-- FailingWriteStandsAtItsPageAndPhase: a failing write in each of the four phases. -/
theorem witness_FailingWriteStandsAtItsPageAndPhase (n : Nat) (hn : n < 32) :
    FailsAt (flushWrites (.src ramp) ⟨0, 0, 127, 63⟩) (failState n)
      ((flushWrites (.src ramp) ⟨0, 0, 127, 63⟩).take n) (flushWrites (.src ramp) ⟨0, 0, 127, 63⟩)[n] errE :=
  failsAt_of_script (rest := []) rfl (by rw [whole_writes]; exact hn)

theorem witness_BoundedDrawSendsTheRectangle :
    reqOpc 0x000000170F080806 = 0x06 ∧ (0x000000170F080806 : Word64).extractLsb' 40 24 = 0 ∧
    ¬ (5 < 128 ∧ 10 < 64 ∧ 3 < 128 ∧ 10 < 64 ∧ 5 ≤ 3 ∧ 10 ≤ 10) ∧ ([] : List Byte).length ≠ 1024 ∧
    ramp.length = 1024 ∧ AnswersOk (flushWrites (.src ramp) ⟨127, 63, 127, 63⟩) okState ∧
    ∃ us w e, FailsAt (flushWrites (.src ramp) ⟨127, 63, 127, 63⟩) (failState 0) us w e :=
  ⟨by decide, by decide, by decide, by decide, ramp_length,
    okState_answersOk rfl (by rw [show (flushWrites (.src ramp) ⟨127, 63, 127, 63⟩).length = 4 from rfl]; decide),
    _, _, _, failsAt_of_script (n := 0) (rest := []) rfl (by rw [show (flushWrites (.src ramp) ⟨127, 63, 127, 63⟩).length = 4 from rfl]; decide)⟩

/-- DrawSendsTheWholeDisplay, DrawIsTheWholeBoundedDraw, WriteCountsOfARegionFlush, TraceDecodesToTheBufferSent. -/
theorem witness_draw_statements :
    ramp.length = 1024 ∧ ([] : List Byte).length ≠ 1024 ∧
    AnswersOk (flushWrites (.src ramp) ⟨0, 0, 127, 63⟩) okState :=
  ⟨ramp_length, by decide, okState_answersOk rfl (by rw [whole_writes]; decide)⟩

/-- FlushSendsTheFramebuffer, WriteCountsOfARegionFlush, TraceDecodesToTheBufferSent: the clauses on FLUSH. -/
theorem witness_flush_statements :
    (bufState someFb).mode = .buffered ∧ (bufState someFb).fb = some someFb ∧
    AnswersOk (flushWrites (.fb someFb) ⟨0, 0, 127, 63⟩) (bufState someFb) ∧
    ∃ us w e, FailsAt (flushWrites (.fb someFb) ⟨0, 0, 127, 63⟩) { bufFailState 5 with fb := some someFb } us w e :=
  ⟨rfl, rfl, okState_answersOk rfl (by rw [whole_writes]; decide), _, _, _,
    failsAt_of_script (n := 5) (rest := []) rfl (by rw [whole_writes]; decide)⟩

theorem witness_OnePageRowIsThreeCommandsAndOneDataWrite :
    ramp.length = 1024 ∧ 0 ≤ 127 ∧ 127 < 128 ∧ 7 < 8 ∧ 8 * 7 ≤ 56 ∧ 56 ≤ 63 ∧ 63 < 8 * 7 + 8 ∧
    AnswersOk (flushWrites (.src ramp) ⟨0, 56, 127, 63⟩) okState :=
  ⟨ramp_length, by decide, by decide, by decide, by decide, by decide, by decide,
    okState_answersOk rfl (by rw [show (flushWrites (.src ramp) ⟨0, 56, 127, 63⟩).length = 4 from rfl]; decide)⟩

/-- RetryAfterFailureSendsTheSameBytes: P3, the sixth write fails and the retry is answered `ok` throughout. -/
theorem witness_RetryAfterFailureSendsTheSameBytes :
    ∃ (s : State) (us : List Write) (w : Write), s.mode = .buffered ∧ s.fb = some someFb ∧
      FailsAt (flushWrites (.fb someFb) ⟨0, 0, 127, 63⟩) s us w errE ∧
      AnswersOk (flushWrites (.fb someFb) ⟨0, 0, 127, 63⟩) (s.failedAt us w errE) := by
  refine ⟨{ bufState someFb with answers := List.replicate 5 .ok ++ .err errE :: List.replicate 42 .ok }, _, _, rfl, rfl,
    failsAt_of_script (n := 5) rfl (by rw [whole_writes]; decide), okState_answersOk ?_ (by rw [whole_writes]; decide)⟩
  simp [State.failedAt, okState, whole_writes]

/-- RepeatedFlushesEmitTheSameWrites, with OnlyThreeRequestsWriteTheFramebuffer's and ModeIsOneWay's changes. -/
theorem witness_next_states :
    ends (exec .flush (bufState someFb)) (fun t => decide (t.response = some .ok)) = true ∧
    ends (exec (.draw ramp) okState) (fun t => decide (t.response = some .ok)) = true ∧
    ends (exec .intoBuffered State.reset) (fun t => decide (t.fb ≠ State.reset.fb ∧ t.mode ≠ State.reset.mode)) = true := by
  decide +kernel

theorem witness_IntoBufferedMakesAZeroedFramebuffer : State.reset.mode = .directWrite ∧ (bufState []).mode = .buffered := by
  decide

/-- InitEmitsItsFixedSequence, InitBeginsWithNineCommands. -/
theorem witness_init_statements :
    AnswersOk initWrites okState ∧ AnswersOk initWrites (bufState someFb) ∧
    ∃ us w e, FailsAt initWrites (failState 41) us w e :=
  ⟨okState_answersOk rfl (by rw [init_writes]), okState_answersOk rfl (by rw [init_writes]), _, _, _,
    failsAt_of_script (n := 41) (rest := []) rfl (by rw [init_writes]; decide)⟩

theorem witness_ResetEmitsOneCommand :
    okState.answer .cmd [0xE2] = .ok ∧ (failState 0).answer .cmd [0xE2] = .err errE := by decide

theorem witness_ModeGateDecidesWhichRequestsRun :
    Instr.flush.isRequest = true ∧ State.reset.mode = .directWrite ∧ (bufState []).mode = .buffered := by decide

/-- In Buffered mode, a FLUSH on the request port. -/
def runState : State := { bufState someFb with port := [.word 0x0000000000000007 []] }

/-- A state that meets every clause of the invariant and has a request to run: EveryInstructionEndsInANextState,
StepKeepsTheInvariant, MarkedBlockIsStopped. -/
theorem witness_Inv : runState.Inv where
  framebuffer := by decide
  memory := by
    intro m hm
    obtain rfl : someFb = m := by simpa [runState, bufState] using hm
    decide
  position := by simp [runState, bufState, okState, State.reset]
  trace := by simp [runState, bufState, okState, State.reset]
  refusedMark := by simp [runState, bufState, okState, State.reset]
  faultedMark := by simp [runState, bufState, okState, State.reset]

/-- Its step: StepKeepsTheInvariant, TraceIsAppendOnly, ModeIsOneWay. -/
theorem witness_step : ends (step runState) (fun t => decide (t.trace.length = 32 ∧ t.mode = .buffered)) = true := by decide

/-- The four responses a request ends in: RpcCountsCompletedRequests, OutOfBoundsMakesNoWrite,
TransportFailureIsTheLastEntry, FaultedRequestsChangeOnlyTheMark, RequestsEmitOnlyListedCommands,
CallerBufferRequestsDoNotReadTheFramebuffer, TransportDoesNotReachTheFramebuffer. -/
theorem witness_responses :
    ends (exec .reset okState) (fun t => decide (t.response = some .ok)) = true ∧
    ends (exec (.draw []) okState) (fun t => decide (t.response = some .outOfBounds)) = true ∧
    ends (exec (.draw ramp) (failState 5)) (fun t => decide (t.response = some (.transportFailure errE))) = true ∧
    ends (exec (.boundedDraw [] 0 0 0 0) okState) (fun t => decide (t.response = some (.faulted (.srcLength 0)))) = true ∧
    ends (exec .clear okState) (fun t => decide (t.response = some (.refused .modeGate))) = true := by decide +kernel

theorem witness_MarkedBlockIsStopped :
    ({ State.reset with refused := some .modeGate } : State).refused = some .modeGate ∧
    ({ State.reset with faulted := some .commandRange } : State).refused = none ∧
    ({ State.reset with faulted := some .commandRange } : State).faulted = some .commandRange ∧
    (bufState someFb).Running := ⟨rfl, rfl, rfl, rfl, rfl⟩

/-- A FLUSH under way in Buffered mode, at the page command of page 7 (R31). -/
def pageState (answers : List Answer) : State :=
  { bufState someFb with answers := answers, port := [.abstract .flush], seq := some (.flush 7 .page) }

/-- StepRunsTheDecodedInstruction, a request word and an abstract request, with BlockWaitsForItsFirstRequest. -/
theorem witness_step_statements :
    State.reset.Running ∧ State.reset.seq = none ∧ State.reset.port = [] ∧
    runState.Running ∧ runState.seq = none ∧ runState.port = [.word 0x0000000000000007 []] ∧
    decodeRequest 0x0000000000000007 [] = .ok .flush ∧
    ({ okState with port := [.abstract .reset] } : State).Running ∧
    ends (step { okState with port := [.abstract .reset] }) (isTrace [(.cmd, [0xE2])]) = true :=
  ⟨⟨rfl, rfl⟩, rfl, rfl, ⟨rfl, rfl⟩, rfl, rfl, by decide, ⟨rfl, rfl⟩, by decide⟩

/-- StepRunsTheDecodedInstruction, a request under way: a wire command is due, and its write is answered `ok`, is the
last one, or is answered `err`. -/
theorem witness_step_underWay :
    (pageState [.ok]).Running ∧ underWay (pageState [.ok]) = some (.flush (.fb someFb) Rect.whole) ∧
    Sequencer.flush 7 .page ∈ (Job.flush (.fb someFb) Rect.whole).positions ∧
    (Job.flush (.fb someFb) Rect.whole).due (.flush 7 .page) = .command (.pageAddr 7) ∧
    ends (step (pageState [.ok])) (fun t => isTrace [(.cmd, [0xB7])] t &&
      decide (t.seq = some (.flush 7 .colLo) ∧ t.response = none ∧ t.rpc = 0)) = true ∧
    ends (step { okState with port := [.abstract .reset], seq := some .swReset }) (fun t => isTrace [(.cmd, [0xE2])] t &&
      decide (t.seq = none ∧ t.port = [] ∧ t.response = some .ok ∧ t.rpc = 1)) = true ∧
    ends (step (pageState [.err errE])) (fun t =>
      decide (t.seq = none ∧ t.port = [] ∧ t.response = some (.transportFailure errE) ∧ t.rpc = 1)) = true :=
  ⟨⟨rfl, rfl⟩, rfl, by decide, rfl, by decide, by decide, by decide⟩

/-- A state with a request under way that meets the invariant: StepKeepsTheInvariant, MarkedBlockIsStopped. -/
theorem witness_Inv_underWay : (pageState [.ok]).Inv where
  framebuffer := by decide
  memory := by
    intro m hm
    obtain rfl : someFb = m := by simpa [pageState, bufState] using hm
    decide
  position := by
    intro q hq
    obtain rfl : Sequencer.flush 7 .page = q := by simpa [pageState] using hq
    exact ⟨.flush (.fb someFb) Rect.whole, rfl, by decide⟩
  trace := by simp [pageState, bufState, okState, State.reset]
  refusedMark := by simp [pageState, bufState, okState, State.reset]
  faultedMark := by simp [pageState, bufState, okState, State.reset]

/-- WriteByWriteIsTheWholeRequest: a FLUSH and a RESET stand at their first positions. -/
theorem witness_WriteByWriteIsTheWholeRequest :
    (pageState []).Running ∧ underWay (pageState []) = some (.flush (.fb someFb) Rect.whole) ∧
    (Job.flush (.fb someFb) Rect.whole).positions.head? = some (.flush 0 .page) ∧
    underWay { okState with port := [.abstract .reset] } = some .reset ∧
    Job.reset.positions.head? = some .swReset := ⟨⟨rfl, rfl⟩, rfl, rfl, rfl, rfl⟩

/-- R31: a sequencer state with no request under way, or that is none of its positions, stops the machine. -/
theorem step_noPosition :
    step { okState with seq := some .swReset } = .fault .noPosition ∧
    step { okState with port := [.abstract .reset], seq := some .displayOn } = .fault .noPosition := ⟨rfl, rfl⟩

/-- NoStepEmitsAnUnlistedCommand, OtherCommandsComeFromInitAndReset: steps that add commands. -/
theorem witness_commands_emitted :
    ends (step runState) (fun t => decide (t.trace.length = 32)) = true ∧
    ends (step { okState with port := [.word 0x0000000000000002 []] }) (isTrace [(.cmd, [0xE2])]) = true ∧
    PortItem.request (.word 0x0000000000000002 []) = .ok .reset := by decide

/-- ReservedWordIsRefused: E2.3's INIT with X0 not 0, SET_PIXEL with the reserved bit 41 and BOUNDED_DRAW with ON. -/
theorem witness_ReservedWordIsRefused :
    ∀ w ∈ ([0x0000000000000101, 0x0000020000000004, 0x0000010000000006] : List Word64),
    ¬ (((reqOpc w = 0x01 ∨ reqOpc w = 0x02 ∨ reqOpc w = 0x03 ∨ reqOpc w = 0x05 ∨ reqOpc w = 0x07 ∨ reqOpc w = 0x08) ∧
        w.extractLsb' 8 56 = 0) ∨
      (reqOpc w = 0x04 ∧ w.extractLsb' 24 16 = 0 ∧ w.extractLsb' 41 23 = 0) ∨
      (reqOpc w = 0x06 ∧ w.extractLsb' 40 24 = 0)) := by
  simp only [List.mem_cons, List.not_mem_nil, or_false]
  rintro w (rfl | rfl | rfl) <;> decide

/-- E2.3: a reserved word on the port. -/
theorem step_reserved : ends (step { okState with port := [.word 0x0000000000000101 []] })
    (fun t => decide (t.refused = some (.encoding 0x0000000000000101) ∧ t.trace = [] ∧ t.rpc = 0)) = true := by decide

theorem witness_PlacedTableWordRuns :
    decodeTableWord 16 0x8128 = some (.setVolume 40) ∧ place (.setVolume 40) = some (.init, .initCommand 4) ∧
    ends (step (okState.withFetchWord 16 0x8128)) (isTrace [(.cmd, [0x81, 0x28])]) = true ∧
    ends (step (okState.withFetchWord 8 0xB7)) (isTrace [(.cmd, [0xB7])]) = true ∧
    ends (step (okState.withFetchWord 8 0xAF)) (isTrace [(.cmd, [0xAF])]) = true ∧
    decodeTableWord 64 8 = some .intoBuffered ∧
    ends (step (okState.withFetchWord 64 8)) (fun t => decide (t.mode = .buffered)) = true := by decide

/-- R114, R115: the largest column a request emits. -/
theorem witness_placed_columns :
    ends (step (okState.withFetchWord 8 0x0F)) (isTrace [(.cmd, [0x0F])]) = true ∧
    ends (step (okState.withFetchWord 8 0x17)) (isTrace [(.cmd, [0x17])]) = true := by decide +kernel

/-- R118, R6: DISPLAY_OFF and the columns from 128 on are placed nowhere. -/
theorem not_placed :
    decodeTableWord 8 0xAE = some .displayOff ∧ place .displayOff = none ∧ okState.withFetchWord 8 0xAE = okState ∧
    decodeTableWord 8 0x18 = some (.colHi 128) ∧ place (.colHi 128) = none ∧ okState.withFetchWord 8 0x18 = okState := by
  decide

end Sys2Proof.Tests
end

/-! SUPPORT. The statements of 00_scope.md: each instruction ends in a next state (R13, R23), a request made one write
a step ends as the request run whole (R2, R31), and only INIT and RESET emit other commands than addresses (R3). -/

namespace Sys2Proof.Machine

/-! ## Every instruction ends in a next state -/

/-- R23: in Buffered mode there is a framebuffer. -/
theorem State.Inv.exists_fb {s : State} (h : s.Inv) (hm : s.mode = .buffered) : ∃ m, s.fb = some m :=
  Option.isSome_iff_exists.1 (h.framebuffer.2 hm)

/-- A request behind the mode gate ends in a next state where its body does in the mode that admits it. -/
theorem gated_next {m : Mode} {body : State → Host.Outcome State Fault Refusal} {s : State}
    (h : s.mode = m → ∃ t, body s = .next t) : ∃ t, gated m body s = .next t := by
  by_cases hm : s.mode = m
  · simpa only [gated_pass hm] using h hm
  · exact ⟨_, gated_refuse hm⟩

theorem withFramebuffer_next {s : State} (h : ∃ m, s.fb = some m) (body : Memory → State → State) :
    ∃ t, withFramebuffer body s = .next t := by
  obtain ⟨m, hm⟩ := h
  exact ⟨body m s, by simp [withFramebuffer, hm]⟩

/-- Where Buffered mode has its framebuffer, every instruction ends in a next state. -/
theorem exec_next (i : Instr) {s : State} (hfb : s.mode = .buffered → ∃ m, s.fb = some m) :
    ∃ t, exec i s = .next t := by
  cases i with
  | init => exact ⟨_, exec_init s⟩
  | reset => exact ⟨_, exec_reset s⟩
  | draw src => exact ⟨_, exec_draw src s⟩
  | boundedDraw src x0 y0 x1 y1 => exact ⟨_, exec_boundedDraw src x0 y0 x1 y1 s⟩
  | clear => exact gated_next fun hm => withFramebuffer_next (hfb hm) _
  | flush => exact gated_next fun hm => withFramebuffer_next (hfb hm) _
  | setPixel x y on =>
    unfold exec execSetPixel
    refine gated_next fun hm => ?_
    split
    · exact withFramebuffer_next (hfb hm) _
    · exact ⟨_, rfl⟩
  | intoBuffered =>
    unfold exec execIntoBuffered
    exact gated_next fun _ => ⟨_, rfl⟩
  | _ => exact ⟨_, exec_command rfl s⟩

/-- Settles O37: the invariant gives the framebuffer, the one thing an instruction can miss. -/
theorem everyInstructionEndsInANextState : Obligations.EveryInstructionEndsInANextState :=
  fun i _ h => exec_next i h.exists_fb

/-! ## A request write by write -/

/-- What a request sends depends on the mode and the framebuffer alone. -/
theorem jobOf_congr {s t : State} (hm : t.mode = s.mode) (hf : t.fb = s.fb) (i : Instr) : jobOf t i = jobOf s i := by
  cases i <;> simp only [jobOf, hm, hf]

/-- Writes end the request in the same way whether it has left the port before them or leaves it after them, and
whatever sequencer state stands before them. -/
theorem finish_leavePort (ws : List Write) (s : State) (q : Option Sequencer) :
    (emitAll ws ({ s with seq := q } : State).leavePort).finish = (emitAll ws s).finish.leavePort := by
  induction ws generalizing s with
  | nil => rfl
  | cons w ws ih =>
    simp only [emitAll_cons]
    rcases emitWrite_cases w.1 w.2 s with ⟨ha, he⟩ | ⟨e, ha, he⟩
    · rw [emitWrite_ok (s := ({ s with seq := q } : State).leavePort) ha, he]
      exact ih (s.record w.1 w.2 .ok)
    · rw [emitWrite_err (s := ({ s with seq := q } : State).leavePort) ha, he]
      rfl

/-- The step of a request under way makes the write that is due. -/
theorem step_due {j : Job} (h : j.ok) {q : Sequencer} (hq : q ∈ j.positions) {w : Write}
    (hw : (j.due q).write = some w) {s : State} (hr : s.Running) (hs : s.seq = some q) (hj : underWay s = some j) :
    step s = .next (moveOn j q (emitWrite w.1 w.2 s).afterWrite) := by
  obtain ⟨w', -, hw', hg⟩ := goOn_write h hq s
  obtain rfl : w' = w := Option.some.inj (hw'.symm.trans hw)
  rw [step_goOn hr hs hj hq, hg]

/-- The writes due at positions, first position first. -/
theorem writes_cons_iff {j : Job} {q : Sequencer} {qs : List Sequencer} {ws : List Write} :
    Writes j (q :: qs) ws ↔ ∃ w ws', ws = w :: ws' ∧ (j.due q).write = some w ∧ Writes j qs ws' := by
  cases ws <;> simp [Writes]

/-- From a position of a request on, the steps along the chain of positions end as the list of their writes ends, and
each of them adds one write to the trace. -/
theorem steps_finish {j : Job} (h : j.ok) {qs : List Sequencer} {q : Sequencer} {ws : List Write}
    (hpos : ∀ p ∈ qs, p ∈ j.positions) (hc : Chain j none qs) (hw : Writes j qs ws) (hq : qs.head? = some q) {s : State}
    (hr : s.Running) (hj : underWay s = some j) :
    ∃ n ≤ qs.length, Steps n { s with seq := some q } (emitAll ws s).finish.leavePort ∧
      (emitAll ws s).finish.trace.length = s.trace.length + n := by
  induction qs generalizing q ws s with
  | nil => cases hq
  | cons p qs ih =>
    obtain rfl : p = q := by simpa using hq
    obtain ⟨w, ws, rfl, hdue, hws⟩ := writes_cons_iff.1 hw
    have hstep := step_due h (hpos p List.mem_cons_self) hdue (s := { s with seq := some p }) hr rfl hj
    rw [emitAll_cons]
    rcases emitWrite_cases w.1 w.2 s with ⟨ha, he⟩ | ⟨e, ha, he⟩
    · rw [emitWrite_ok (s := { s with seq := some p }) ha, Progress.afterWrite, moveOn_ok j p rfl, hc.1] at hstep
      rw [he, bind_going]
      cases hnext : qs.head? with
      | none =>
        obtain rfl : qs = [] := List.head?_eq_none_iff.1 hnext
        obtain rfl : ws = [] := by simpa [Writes] using hws
        refine ⟨1, le_rfl, ⟨_, hstep, rfl⟩, ?_⟩
        simp [Progress.finish]
      | some q' =>
        rw [hnext] at hstep
        obtain ⟨n, hn, hsteps, hlen⟩ := ih (s := s.record w.1 w.2 .ok)
          (fun a ha => hpos a (List.mem_cons_of_mem _ ha)) hc.2 hws hnext hr hj
        refine ⟨n + 1, Nat.succ_le_succ hn, ⟨_, hstep, hsteps⟩, ?_⟩
        rw [hlen, record_trace, List.length_append, List.length_singleton]
        omega
    · rw [emitWrite_err (s := { s with seq := some p }) ha] at hstep
      rw [he, bind_ended]
      refine ⟨1, by simp, ⟨_, hstep, rfl⟩, ?_⟩
      simp [Progress.finish]

/-- Settles O53: both ways end as the list of the request's writes ends. -/
theorem writeByWriteIsTheWholeRequest : Obligations.WriteByWriteIsTheWholeRequest := by
  intro s j q hr hj hq
  obtain ⟨item, rest, i, hport, hitem, hjob⟩ := underWay_spec hj
  obtain ⟨hok, -, hexec, -⟩ :=
    jobOf_spec ((jobOf_congr (t := ({ s with seq := none } : State).leavePort) rfl rfl i).trans hjob)
  obtain ⟨n, hn, hsteps, hlen⟩ :=
    steps_finish hok (fun _ hp => hp) (positions_chain hok) (positions_writes hok) hq hr hj
  refine ⟨(emitAll j.writes s).finish.leavePort, n, ?_, hsteps, hn, hlen⟩
  have hleave : ({ s with seq := none, port := rest } : State) = ({ s with seq := none } : State).leavePort := by
    simp [State.leavePort, hport]
  rw [step_run (s := { s with seq := none }) hr rfl hport hitem, hleave, hexec, finish_leavePort]

/-! ## Where commands come from -/

/-- R3: a write that is data, or a page or column address. -/
def AddressOrData (w : Write) : Prop :=
  w.1 = .cmd → ∃ n, decodeCommand w.2 = .ok (.pageAddr n) ∨ decodeCommand w.2 = .ok (.colLo n) ∨
    decodeCommand w.2 = .ok (.colHi n)

theorem addressOrData_flushWrites (source : Source) {r : Rect} (hv : r.valid = true) :
    ∀ w ∈ flushWrites source r, AddressOrData w := by
  intro w hw hk
  have hx := ((valid_iff r).1 hv).1
  obtain ⟨p, hp, hw⟩ := mem_flushWrites hv hw
  simp only [pageWrites, List.mem_cons, List.not_mem_nil, or_false] at hw
  rcases hw with rfl | rfl | rfl | rfl
  · exact ⟨p, .inl (decode_pageAddr p hp)⟩
  · exact ⟨_, .inr (.inl (decode_colLo _ hx))⟩
  · exact ⟨_, .inr (.inr (decode_colHi _ hx))⟩
  · cases hk

/-- What a request under way has to send is addresses and data, or the request is INIT or RESET. -/
theorem addressOrData_of_jobOf {s : State} {i : Instr} {j : Job} (h : jobOf s i = some j) :
    ∀ w ∈ j.writes, AddressOrData w ∨ i = .init ∨ i = .reset := by
  intro w hw
  obtain ⟨hok, -, -, ⟨hi, -⟩ | ⟨hi, -⟩ | ⟨source, rect, rfl⟩⟩ := jobOf_spec h
  · exact .inr (.inl hi)
  · exact .inr (.inr hi)
  · exact .inl (addressOrData_flushWrites source hok w hw)

theorem mem_of_mem_okEntries {ws : List Write} {e : TraceEntry} (he : e ∈ okEntries ws) : (e.kind, e.bytes) ∈ ws := by
  obtain ⟨w, hw, rfl⟩ := List.mem_map.1 he
  exact hw

/-- A list of writes adds to the trace entries of its own writes alone. -/
theorem finish_trace (ws : List Write) (s : State) :
    ∃ es, (emitAll ws s).finish.trace = s.trace ++ es ∧ ∀ e ∈ es, (e.kind, e.bytes) ∈ ws := by
  rcases finish_cases ws s with ⟨-, h⟩ | ⟨us, w, err, ⟨⟨vs, rfl⟩, -, -⟩, h⟩ <;> rw [h]
  · exact ⟨okEntries ws, rfl, fun _ => mem_of_mem_okEntries⟩
  · refine ⟨okEntries us ++ [⟨w.1, w.2, .err err⟩], by simp [State.failedAt], fun e he => ?_⟩
    rcases List.mem_append.1 he with he | he
    · exact List.mem_append_left _ (mem_of_mem_okEntries he)
    · obtain rfl := List.mem_singleton.1 he
      simp

/-- What a request adds to the trace is addresses and data, or the request is INIT or RESET. -/
theorem exec_addressOrData {i : Instr} (hreq : i.isRequest = true) {s t : State} (h : exec i s = .next t) :
    ∃ es, t.trace = s.trace ++ es ∧ ∀ e ∈ es, AddressOrData (e.kind, e.bytes) ∨ i = .init ∨ i = .reset := by
  cases exec_effect h with
  | command hcmd => simp [hreq] at hcmd
  | ends r _ ht => exact ⟨[], by simp [ht], by simp⟩
  | framebuffer mode m _ ht => exact ⟨[], by simp [ht], by simp⟩
  | writes ws hws ht =>
    obtain ⟨es, hes, hmem⟩ := finish_trace ws s
    refine ⟨es, by rw [ht, hes], fun e he => ?_⟩
    have hw := hmem e he
    rcases hws with ⟨hi, -⟩ | ⟨hi, -⟩ | ⟨src, -, -, rfl⟩ | ⟨src, x0, y0, x1, y1, -, hv, -, rfl⟩ | ⟨m, -, -, -, rfl⟩
    · exact .inr (.inl hi)
    · exact .inr (.inr hi)
    · exact .inl (addressOrData_flushWrites _ valid_whole _ hw)
    · exact .inl (addressOrData_flushWrites _ hv _ hw)
    · exact .inl (addressOrData_flushWrites _ valid_whole _ hw)

/-- What a step adds to the trace is nothing, or what the request at the head of the request port sends: addresses and
data, or that request is INIT or RESET. -/
theorem step_addressOrData {s t : State} (h : step s = .next t) :
    ∃ es, t.trace = s.trace ++ es ∧ (es = [] ∨ ∃ item rest i, s.port = item :: rest ∧ item.request = .ok i ∧
      ∀ e ∈ es, AddressOrData (e.kind, e.bytes) ∨ i = .init ∨ i = .reset) := by
  obtain ⟨-, -, ⟨q, j, hs, hj, hq, hgo⟩ | ⟨-, ⟨-, rfl⟩ | ⟨i, s', hf, hexec⟩ | ⟨r, s', hf, rfl⟩⟩⟩ := step_cases h
  · obtain ⟨item, rest, i, hp, hi, hjob⟩ := underWay_spec hj
    obtain ⟨w, hw, htrace, -⟩ := goOn_leaves (jobOf_spec hjob).1 hq hs hgo
    refine ⟨_, htrace, .inr ⟨item, rest, i, hp, hi, fun e he => ?_⟩⟩
    obtain rfl := List.mem_singleton.1 he
    exact addressOrData_of_jobOf hjob w hw
  · exact ⟨[], by simp, .inl rfl⟩
  · obtain ⟨item, rest, hp, hi, rfl⟩ := fetch_run hf
    obtain ⟨es, htrace, hes⟩ := exec_addressOrData (request_isRequest hi) hexec
    exact ⟨es, htrace, .inr ⟨item, rest, i, hp, hi, hes⟩⟩
  · obtain ⟨item, rest, -, -, rfl⟩ := fetch_reject hf
    exact ⟨[], by simp, .inl rfl⟩

/-- Settles O55: a command that is no address makes the request at the head of the port INIT or RESET. -/
theorem otherCommandsComeFromInitAndReset : Obligations.OtherCommandsComeFromInitAndReset := by
  intro s t h
  obtain ⟨es, htrace, hnil | ⟨item, rest, i, hp, hi, hes⟩⟩ := step_addressOrData h
  · exact ⟨es, htrace, by simp [hnil]⟩
  · refine ⟨es, htrace, fun e he hcmd => ?_⟩
    rcases hes e he with haddr | rfl | rfl
    · exact .inl (haddr hcmd)
    · exact .inr ⟨item, rest, hp, .inl hi⟩
    · exact .inr ⟨item, rest, hp, .inr hi⟩

end Sys2Proof.Machine

/-! SUPPORT. The statements of 10_state.md: what every step keeps of the block's state (R23, R30, R31, R65, R67), what a
step adds to the trace (R28), who writes mode, framebuffer, `rpc` and marks (R22, R23, R29, R30), and the state after
power-on (R33). -/

namespace Sys2Proof.Machine

/-! ## How a request ends -/

@[simp] theorem finish_seq (p : Progress) : p.finish.seq = none := by cases p <;> simp [Progress.finish]

/-- However its writes are answered, a request that makes them ends with an outcome, in a state whose `rpc` and marks
are still those before. -/
theorem finish_eq_endRequest (ws : List Write) (s : State) :
    ∃ r u, (emitAll ws s).finish = endRequest r u ∧ u.rpc = s.rpc ∧ u.refused = s.refused ∧ u.faulted = s.faulted := by
  rcases emitAll_cases ws s with ⟨-, h⟩ | ⟨us, w, vs, e, -, -, -, h⟩ <;> rw [h]
  · exact ⟨.ok, s.wrote ws, rfl, rfl, rfl, rfl⟩
  · exact ⟨.transportFailure e, (s.wrote us).record w.1 w.2 (.err e), rfl, rfl, rfl, rfl⟩

/-- Every request that ends in a next state ends with an outcome, in a state whose `rpc` and marks are still those
before. -/
theorem exec_eq_endRequest {i : Instr} (hreq : i.isRequest = true) {s t : State} (h : exec i s = .next t) :
    ∃ r u, t = endRequest r u ∧ u.rpc = s.rpc ∧ u.refused = s.refused ∧ u.faulted = s.faulted := by
  cases exec_effect h with
  | command hcmd => simp [hreq] at hcmd
  | writes ws _ ht => exact ht ▸ finish_eq_endRequest ws s
  | ends r _ ht => exact ⟨r, s, ht, rfl, rfl, rfl⟩
  | framebuffer mode m _ ht => exact ⟨.ok, _, ht, rfl, rfl, rfl⟩

/-- R30: a step that ends in a next state found no mark set. -/
theorem running_of_step {s t : State} (h : step s = .next t) : s.Running :=
  let ⟨hr, hf, _⟩ := step_cases h
  ⟨hr, hf⟩

/-- R161, R164, R165: the request under way has passed its checks. -/
theorem underWay_job {s : State} {j : Job} (h : underWay s = some j) : j.ok ∧ j.source.full :=
  let ⟨_, _, _, _, _, hjob⟩ := underWay_spec h
  let ⟨hok, hfull, _⟩ := jobOf_spec hjob
  ⟨hok, hfull⟩

/-! ## The invariant -/

/-- The part of the invariant that speaks of mode, framebuffer and trace alone. -/
structure State.Sound (s : State) : Prop where
  framebuffer : s.fb.isSome = true ↔ s.mode = .buffered
  memory : ∀ m, s.fb = some m → m.wf = true
  trace : ∀ e ∈ s.trace, entryLegal e

theorem State.Inv.sound {s : State} (h : s.Inv) : s.Sound := ⟨h.framebuffer, h.memory, h.trace⟩

/-- A state with its framebuffer's canonical bytes in Buffered mode. -/
theorem State.Sound.intoFramebuffer {s : State} (h : s.Sound) {m : Memory} (hm : m.wf = true) :
    ({ s with mode := .buffered, fb := some m } : State).Sound where
  framebuffer := by simp
  memory := by rintro _ ⟨⟩; exact hm
  trace := h.trace

theorem State.Sound.record {s : State} (h : s.Sound) {k : WriteKind} {bytes : List Byte} {a : Answer}
    (hl : entryLegal ⟨k, bytes, a⟩) : (s.record k bytes a).Sound where
  framebuffer := h.framebuffer
  memory := h.memory
  trace := by
    intro e he
    rcases List.mem_append.1 he with he | he
    · exact h.trace e he
    · exact List.mem_singleton.1 he ▸ hl

/-- R30, R31: a request that ends while no mark is set ends in the invariant, whatever its outcome. -/
theorem State.Sound.endRequest_inv {s : State} (h : s.Sound) (hr : s.Running) (r : Response) :
    (endRequest r s).Inv where
  framebuffer := by simpa using h.framebuffer
  memory := by simpa using h.memory
  position := by simp
  trace := by simpa using h.trace
  refusedMark := by cases r <;> simp [hr.1]
  faultedMark := by cases r <;> simp [hr.2]

/-- Legal writes end a request in the invariant, whatever their answers. -/
theorem State.Sound.emitAll_inv {ws : List Write} (hl : ∀ w ∈ ws, ∀ a, entryLegal ⟨w.1, w.2, a⟩) {s : State}
    (h : s.Sound) (hr : s.Running) : (emitAll ws s).finish.Inv := by
  induction ws generalizing s with
  | nil => exact h.endRequest_inv hr .ok
  | cons w ws ih =>
    have hw := hl w List.mem_cons_self
    rw [emitAll_cons]
    rcases emitWrite_cases w.1 w.2 s with ⟨-, he⟩ | ⟨e, -, he⟩ <;> rw [he]
    · exact ih (fun v hv => hl v (List.mem_cons_of_mem _ hv)) (h.record (hw _)) hr
    · exact (h.record (hw (.err e))).endRequest_inv hr (.transportFailure e)

/-- A request run whole while no mark is set ends in the invariant. -/
theorem State.Sound.exec_inv {i : Instr} (hreq : i.isRequest = true) {s t : State} (h : s.Sound) (hr : s.Running)
    (hx : exec i s = .next t) : t.Inv := by
  cases exec_effect hx with
  | command hcmd => simp [hreq] at hcmd
  | ends r _ ht => exact ht ▸ h.endRequest_inv hr r
  | writes ws hws ht =>
    refine ht ▸ h.emitAll_inv ?_ hr
    rcases hws with ⟨-, rfl⟩ | ⟨-, rfl⟩ | ⟨src, -, hl, rfl⟩ | ⟨src, x0, y0, x1, y1, -, hv, hl, rfl⟩ | ⟨m, -, -, -, rfl⟩
    · exact legal_init
    · exact legal_job (j := .reset) trivial trivial
    · exact legal_flush (source := .src src) hl valid_whole
    · exact legal_flush (source := .src src) hl hv
    · exact legal_flush (source := .fb m) trivial valid_whole
  | framebuffer mode m hm ht =>
    have hwf : mode = .buffered ∧ m.wf = true := by
      rcases hm with ⟨-, -, hb, rfl⟩ | ⟨-, -, hb, rfl⟩ | ⟨x, y, v, m₀, -, -, hb, hfb, hx, hy, rfl⟩
      · exact ⟨hb, wf_zeroed⟩
      · exact ⟨hb, wf_zeroed⟩
      · exact ⟨hb, wf_setPixel (h.memory m₀ hfb) hx hy v⟩
    obtain ⟨rfl, hwf⟩ := hwf
    exact ht ▸ (h.intoFramebuffer hwf).endRequest_inv hr .ok

/-- The request at the head of the port may leave it where none is under way. -/
theorem State.Inv.leavePort {s : State} (h : s.Inv) (hs : s.seq = none) : s.leavePort.Inv :=
  { h with position := by simp [hs] }

/-- R31: one write of a request under way keeps the invariant: the position that follows is one of the same request. -/
theorem State.Inv.goOn_inv {s t : State} (h : s.Inv) (hr : s.Running) {q : Sequencer} {j : Job} (hs : s.seq = some q)
    (hj : underWay s = some j) (hq : q ∈ j.positions) (hgo : goOn j q s = .next t) : t.Inv := by
  obtain ⟨hok, hfull⟩ := underWay_job hj
  obtain ⟨w, hw, -, hg⟩ := goOn_write hok hq s
  have hrecord (a : Answer) : (s.record w.1 w.2 a).Sound := h.sound.record (legal_job hok hfull w hw a)
  have hend (r : Response) (a : Answer) : (endRequest r (s.record w.1 w.2 a)).leavePort.Inv :=
    ((hrecord a).endRequest_inv hr r).leavePort (endRequest_seq ..)
  obtain rfl : moveOn j q (emitWrite w.1 w.2 s).afterWrite = t := by rw [hg] at hgo; injection hgo
  rcases emitWrite_cases w.1 w.2 s with ⟨-, he⟩ | ⟨e, -, he⟩ <;> rw [he, Progress.afterWrite]
  · rw [moveOn_ok j q hs]
    cases hnext : j.advance q with
    | none => exact hend .ok .ok
    | some q' =>
      exact { h with
        trace := (hrecord .ok).trace
        position := by
          rintro _ ⟨⟩
          exact ⟨j, (underWay_congr rfl rfl rfl).trans hj, advance_mem hok hq hnext⟩ }
  · exact hend (.transportFailure e) (.err e)

/-- Settles O38: a step makes one write of the request under way, waits, runs a request, or refuses a word. -/
theorem stepKeepsTheInvariant : Obligations.StepKeepsTheInvariant := by
  intro s t h hstep
  have hr := running_of_step hstep
  obtain ⟨-, -, ⟨q, j, hs, hj, hq, hgo⟩ | ⟨-, ⟨-, rfl⟩ | ⟨i, s', hf, hexec⟩ | ⟨r, s', hf, rfl⟩⟩⟩ := step_cases hstep
  · exact h.goOn_inv hr hs hj hq hgo
  · exact h
  · obtain ⟨item, rest, -, hi, rfl⟩ := fetch_run hf
    have hsound : ({ s with port := rest } : State).Sound := { h.sound with }
    exact hsound.exec_inv (request_isRequest hi) hr hexec
  · obtain ⟨item, rest, -, -, rfl⟩ := fetch_reject hf
    have hsound : ({ s with port := rest } : State).Sound := { h.sound with }
    exact hsound.endRequest_inv hr _

/-! ## The trace -/

/-- R28, R49: the trace of `t` is that of `s` and then new entries, of which all but the last were answered `ok`. -/
def AppendsUpToFailure (s t : State) : Prop :=
  ∃ es, t.trace = s.trace ++ es ∧ ∀ e ∈ es.dropLast, e.answer = .ok

theorem appendsUpToFailure_of_trace_eq {s t : State} (h : t.trace = s.trace) : AppendsUpToFailure s t :=
  ⟨[], by simp [h], by simp⟩

theorem answer_of_mem_okEntries {ws : List Write} {e : TraceEntry} (he : e ∈ okEntries ws) : e.answer = .ok := by
  obtain ⟨w, -, rfl⟩ := List.mem_map.1 he
  rfl

theorem finish_appendsUpToFailure (ws : List Write) (s : State) : AppendsUpToFailure s (emitAll ws s).finish := by
  rcases finish_cases ws s with ⟨-, h⟩ | ⟨us, w, e, -, h⟩ <;> rw [h]
  · exact ⟨okEntries ws, rfl, fun _ he => answer_of_mem_okEntries (List.mem_of_mem_dropLast he)⟩
  · refine ⟨okEntries us ++ [⟨w.1, w.2, .err e⟩], by simp [State.failedAt], fun _ he => ?_⟩
    rw [List.dropLast_concat] at he
    exact answer_of_mem_okEntries he

theorem exec_appendsUpToFailure {i : Instr} (hreq : i.isRequest = true) {s t : State} (h : exec i s = .next t) :
    AppendsUpToFailure s t := by
  cases exec_effect h with
  | command hcmd => simp [hreq] at hcmd
  | writes ws _ ht => exact ht ▸ finish_appendsUpToFailure ws s
  | ends r _ ht => exact appendsUpToFailure_of_trace_eq (by simp [ht])
  | framebuffer mode m _ ht => exact appendsUpToFailure_of_trace_eq (by simp [ht])

/-- Settles O41: a request under way adds one entry, a request run whole those up to its first failing write. -/
theorem traceIsAppendOnly : Obligations.TraceIsAppendOnly := by
  intro s t h
  obtain ⟨-, -, ⟨q, j, hs, hj, hq, hgo⟩ | ⟨-, ⟨-, rfl⟩ | ⟨i, s', hf, hexec⟩ | ⟨r, s', hf, rfl⟩⟩⟩ := step_cases h
  · obtain ⟨w, -, htrace, -⟩ := goOn_leaves (underWay_job hj).1 hq hs hgo
    exact ⟨_, htrace, by simp⟩
  · exact appendsUpToFailure_of_trace_eq rfl
  · obtain ⟨item, rest, -, hi, rfl⟩ := fetch_run hf
    exact exec_appendsUpToFailure (s := { s with port := rest }) (request_isRequest hi) hexec
  · obtain ⟨item, rest, -, -, rfl⟩ := fetch_reject hf
    exact appendsUpToFailure_of_trace_eq (by simp)

/-! ## The mode and the framebuffer -/

/-- R22: what an instruction does to the mode. -/
theorem exec_mode {i : Instr} {s t : State} (h : exec i s = .next t) :
    t.mode = s.mode ∨ (i = .intoBuffered ∧ s.mode = .directWrite ∧ t.mode = .buffered) := by
  cases exec_effect h with
  | command _ ht => exact .inl (ht ▸ (command_leaves i.command s).1)
  | writes ws _ ht => exact .inl (ht ▸ (writes_leave ws s).mode)
  | ends r _ ht => exact .inl (ht ▸ endRequest_mode r s)
  | framebuffer mode m hm ht =>
    obtain rfl : t.mode = mode := by simp [ht]
    rcases hm with ⟨-, hs, hb, -⟩ | ⟨hi, hs, hb, -⟩ | ⟨x, y, v, m₀, -, hs, hb, -⟩
    · exact .inl (hb.trans hs.symm)
    · exact .inr ⟨hi, hs, hb⟩
    · exact .inl (hb.trans hs.symm)

/-- Settles O42: the mode changes in an instruction alone, and only towards Buffered. -/
theorem modeIsOneWay : Obligations.ModeIsOneWay := by
  refine ⟨fun i s t => exec_mode, fun s t h hb => ?_⟩
  obtain ⟨-, -, ⟨q, j, hs, hj, hq, hgo⟩ | ⟨-, ⟨-, rfl⟩ | ⟨i, s', hf, hexec⟩ | ⟨r, s', hf, rfl⟩⟩⟩ := step_cases h
  · obtain ⟨w, -, -, hmode, -⟩ := goOn_leaves (underWay_job hj).1 hq hs hgo
    exact hmode.trans hb
  · exact hb
  · obtain ⟨item, rest, -, -, rfl⟩ := fetch_run hf
    rcases exec_mode hexec with hmode | ⟨-, -, hmode⟩
    · exact hmode.trans hb
    · exact hmode
  · obtain ⟨item, rest, -, -, rfl⟩ := fetch_reject hf
    simpa using hb

/-- Settles O43: writes, commands and early ends leave the framebuffer, which leaves the three requests. -/
theorem onlyThreeRequestsWriteTheFramebuffer : Obligations.OnlyThreeRequestsWriteTheFramebuffer := by
  intro i s t h hne
  cases exec_effect h with
  | command _ ht => exact absurd (ht ▸ (command_leaves i.command s).2.1) hne
  | writes ws _ ht => exact absurd (ht ▸ (writes_leave ws s).fb) hne
  | ends r _ ht => exact absurd (ht ▸ endRequest_fb r s) hne
  | framebuffer mode m hm _ =>
    rcases hm with ⟨hi, -⟩ | ⟨hi, -⟩ | ⟨x, y, v, m₀, hi, -⟩
    · exact .inl hi
    · exact .inr (.inl hi)
    · exact .inr (.inr ⟨x, y, v, hi⟩)

/-- What INIT, RESET, DRAW and BOUNDED_DRAW do is fixed by their operands: a list of writes, or an outcome. -/
theorem exec_callerBuffer {i : Instr}
    (hi : i = .init ∨ i = .reset ∨ (∃ src, i = .draw src) ∨ ∃ src x0 y0 x1 y1, i = .boundedDraw src x0 y0 x1 y1) :
    (∃ ws, ∀ s, exec i s = .next (emitAll ws s).finish) ∨ ∃ r, ∀ s, exec i s = .next (endRequest r s) := by
  rcases hi with rfl | rfl | ⟨src, rfl⟩ | ⟨src, x0, y0, x1, y1, rfl⟩
  · exact .inl ⟨_, exec_init⟩
  · exact .inl ⟨_, exec_reset⟩
  · by_cases hl : src.length = 1024
    · exact .inl ⟨_, fun s => by rw [exec_draw, if_pos hl]⟩
    · exact .inr ⟨.outOfBounds, fun s => by rw [exec_draw, if_neg hl]; rfl⟩
  · by_cases hv : x0 < 128 ∧ y0 < 64 ∧ x1 < 128 ∧ y1 < 64 ∧ x0 ≤ x1 ∧ y0 ≤ y1
    · by_cases hl : src.length = 1024
      · exact .inl ⟨_, fun s => by rw [exec_boundedDraw, if_pos hv, if_pos hl]⟩
      · exact .inr ⟨.faulted (.srcLength src.length), fun s => by rw [exec_boundedDraw, if_pos hv, if_neg hl]; rfl⟩
    · exact .inr ⟨.outOfBounds, fun s => by rw [exec_boundedDraw, if_neg hv]; rfl⟩

theorem endRequest_fb_update (r : Response) (s : State) (f : Option Memory) :
    endRequest r { s with fb := f } = { endRequest r s with fb := f } := by cases r <;> rfl

/-- The transport does not see the framebuffer: with another one, writes end the request in the same state but for
that framebuffer. -/
theorem emitAll_finish_fb_update (ws : List Write) (s : State) (f : Option Memory) :
    (emitAll ws { s with fb := f }).finish = { (emitAll ws s).finish with fb := f } := by
  induction ws generalizing s with
  | nil => rfl
  | cons w ws ih =>
    simp only [emitAll_cons]
    rcases emitWrite_cases w.1 w.2 s with ⟨ha, he⟩ | ⟨e, ha, he⟩
    · rw [emitWrite_ok (s := { s with fb := f }) ha, he]
      exact ih (s.record w.1 w.2 .ok)
    · rw [emitWrite_err (s := { s with fb := f }) ha, he]
      exact endRequest_fb_update (.transportFailure e) (s.record w.1 w.2 (.err e)) f

/-- Settles O44: neither the writes nor the outcome the operands fix depend on the framebuffer. -/
theorem callerBufferRequestsDoNotReadTheFramebuffer : Obligations.CallerBufferRequestsDoNotReadTheFramebuffer := by
  intro i s f hi
  rcases exec_callerBuffer hi with ⟨ws, hexec⟩ | ⟨r, hexec⟩
  · exact ⟨_, hexec s, (writes_leave ws s).fb, by rw [hexec, emitAll_finish_fb_update]⟩
  · exact ⟨_, hexec s, endRequest_fb r s, by rw [hexec, endRequest_fb_update]⟩

/-! ## `rpc` and the marks -/

/-- Settles O46: by the outcome the request ends with. -/
theorem rpcCountsCompletedRequests : Obligations.RpcCountsCompletedRequests := by
  refine ⟨rfl, fun i s t hreq h => ?_⟩
  have hstopped : t.refused ≠ none ∨ t.faulted ≠ none → ∀ u, step t ≠ .next u := by
    rintro (hm | hm) u hu
    · exact hm (running_of_step hu).1
    · exact hm (running_of_step hu).2
  obtain ⟨r, u, rfl, hrpc, -, -⟩ := exec_eq_endRequest hreq h
  cases r with
  | ok => exact .inl ⟨.inl rfl, congrArg (· + 1) hrpc⟩
  | outOfBounds => exact .inl ⟨.inr (.inl rfl), congrArg (· + 1) hrpc⟩
  | transportFailure e => exact .inl ⟨.inr (.inr ⟨e, rfl⟩), congrArg (· + 1) hrpc⟩
  | refused reason => exact .inr ⟨.inl ⟨reason, rfl, rfl⟩, hrpc, hstopped (.inl (by simp))⟩
  | faulted reason => exact .inr ⟨.inr ⟨reason, rfl, rfl⟩, hrpc, hstopped (.inr (by simp))⟩

/-- R30: the marks set in `s` are set in `t`. -/
def KeepsMarks (s t : State) : Prop :=
  (s.refusedBit = true → t.refusedBit = true) ∧ (s.faultedBit = true → t.faultedBit = true)

theorem keepsMarks_of_eq {s t : State} (hr : t.refused = s.refused) (hf : t.faulted = s.faulted) : KeepsMarks s t := by
  simp [KeepsMarks, State.refusedBit, State.faultedBit, hr, hf]

theorem keepsMarks_endRequest (r : Response) (s : State) : KeepsMarks s (endRequest r s) := by
  cases r <;> simp [KeepsMarks, State.refusedBit, State.faultedBit]

theorem keepsMarks_command (c : Option (List Byte)) (s : State) : KeepsMarks s (emitCommand c s).afterWrite := by
  cases c with
  | none => exact keepsMarks_endRequest (.faulted .commandRange) s
  | some bytes =>
    cases ha : s.answer .cmd bytes with
    | ok => rw [afterWrite_ok ha]; exact keepsMarks_of_eq rfl rfl
    | err e => rw [afterWrite_err ha]; exact keepsMarks_of_eq rfl rfl

theorem exec_keepsMarks {i : Instr} {s t : State} (h : exec i s = .next t) : KeepsMarks s t := by
  cases exec_effect h with
  | command _ ht => exact ht ▸ keepsMarks_command i.command s
  | writes ws _ ht => exact ht ▸ keepsMarks_of_eq (writes_leave ws s).refused (writes_leave ws s).faulted
  | ends r _ ht => exact ht ▸ keepsMarks_endRequest r s
  | framebuffer mode m _ ht => exact ht ▸ keepsMarks_endRequest .ok { s with mode := mode, fb := some m }

/-- R30: the outcome that stops the block stands with its mark. -/
theorem marks_of_response {i : Instr} (hreq : i.isRequest = true) {s t : State} (h : exec i s = .next t) :
    (∀ r, t.response = some (.refused r) → t.refused = some r) ∧
    (∀ r, t.response = some (.faulted r) → t.faulted = some r) := by
  obtain ⟨r, u, rfl, -⟩ := exec_eq_endRequest hreq h
  cases r <;> simp

/-- A block of the invariant with no mark set always has a next state: its position is one of the request under way,
and the framebuffer is there where an instruction needs it. -/
theorem State.Inv.step_next {s : State} (h : s.Inv) (hr : s.Running) : ∃ t, step s = .next t := by
  cases hs : s.seq with
  | some q =>
    obtain ⟨j, hj, hq⟩ := h.position q hs
    obtain ⟨w, -, -, hgo⟩ := goOn_write (underWay_job hj).1 hq s
    exact ⟨_, by rw [step_goOn hr hs hj hq, hgo]⟩
  | none =>
    cases hf : fetch s with
    | idle => exact ⟨s, by simp [step, hr.1, hr.2, hs, hf]⟩
    | reject r s' => exact ⟨endRequest (.refused r) s', by simp only [step, hr.1, hr.2, hs, hf]⟩
    | run i s' =>
      obtain ⟨item, rest, hp, hi, rfl⟩ := fetch_run hf
      rw [step_run hr hs hp hi]
      exact exec_next i h.exists_fb

/-- Settles O47: the outcome sets the mark, no instruction clears it, and a step looks at it first. -/
theorem markedBlockIsStopped : Obligations.MarkedBlockIsStopped := by
  refine ⟨rfl, rfl, fun i s t hreq => marks_of_response hreq, fun i s t => exec_keepsMarks, fun s r hr => ?_,
    fun s r hr hf => ?_, fun s => State.Inv.step_next⟩
  · simp [step, hr]
  · simp [step, hr, hf]

/-! ## After power-on -/

/-- Settles O39: nothing is there that a clause could speak of. -/
theorem powerOnStateMeetsTheInvariant : Obligations.PowerOnStateMeetsTheInvariant where
  framebuffer := by simp [State.reset]
  memory := by simp [State.reset]
  position := by simp [State.reset]
  trace := by simp [State.reset]
  refusedMark := by simp [State.reset]
  faultedMark := by simp [State.reset]

/-- Settles O40: INTO_BUFFERED is admitted after power-on, and RESET is one write. -/
theorem powerOnState : Obligations.PowerOnState := by
  refine ⟨rfl, rfl, rfl, rfl, rfl, rfl, rfl, rfl, ⟨_, _, exec_intoBuffered rfl, rfl, read_zeroed⟩, fun s => ?_⟩
  have hleave := writes_leave [(.cmd, [0xE2])] s
  exact ⟨_, exec_reset s, hleave.mode, hleave.fb, hleave.refused, hleave.faulted, finish_seq _⟩

end Sys2Proof.Machine

/-! SUPPORT. The byte space of the framebuffer: where each pixel lies (R43), and the requests that may be repeated
(R47). -/

namespace Sys2Proof.Machine

/-! ## Each pixel has its own bit -/

/-- R43: the pixel that byte `i` and bit `k` hold lies on the display. -/
theorem pixel_of_bit_on_display {i k : Nat} (hi : i < 1024) (hk : k < 8) :
    i % 128 < 128 ∧ 8 * (i / 128) + k < 64 := by omega

/-- R43: the row named for bit `k` of byte `i` is in the page of that byte. -/
theorem indexOf_pixel_of_bit (i : Nat) {k : Nat} (hk : k < 8) : indexOf (i % 128) (8 * (i / 128) + k) = i := by
  rw [indexOf_eq]; omega

theorem bitOf_pixel_of_bit (i : Nat) {k : Nat} (hk : k < 8) : bitOf (8 * (i / 128) + k) = k := by
  rw [bitOf_eq]; omega

/-- Settles O19: the inverse map names the bit it started from, so the pixel there reads that bit. -/
theorem eachPixelHasItsOwnBit : Obligations.EachPixelHasItsOwnBit := by
  refine ⟨fun i k hi hk => ?_, fun x y x' y' hx _ hx' _ => indexOf_inj hx hx', fun x y => indexOf_lt,
    fun m i k _ hk => ?_⟩
  · obtain ⟨hx, hy⟩ := pixel_of_bit_on_display hi hk
    exact ⟨hx, hy, indexOf_pixel_of_bit i hk, bitOf_pixel_of_bit i hk⟩
  · rw [pixel, indexOf_pixel_of_bit i hk, bitOf_pixel_of_bit i hk]

/-! ## Repeated requests -/

/-- R141: a bit replaced twice by one value is replaced once. -/
theorem replaceBit_replaceBit (b : Byte) (v : Bool) {k : Nat} (hk : k < 8) :
    replaceBit (replaceBit b k v) k v = replaceBit b k v := by
  apply BitVec.eq_of_getLsbD_eq
  intro j hj
  rw [replaceBit_getLsbD _ v hk hj, replaceBit_getLsbD b v hk hj]
  split <;> rfl

/-- R47: the same pixel set twice leaves the list of bytes that setting it once does; both are canonical and read
alike. -/
theorem setPixel_setPixel {m : Memory} (h : m.wf = true) {x y : Nat} (hx : x < 128) (hy : y < 64) (v : Bool) :
    setPixel (setPixel m x y v) x y v = setPixel m x y v := by
  have h₁ := wf_setPixel h hx hy v
  refine wf_ext (wf_setPixel h₁ hx hy v) h₁ fun a => ?_
  rw [read_setPixel h₁ x y a v]
  split
  next ha => rw [ha, read_setPixel h x y _ v, if_pos rfl, replaceBit_replaceBit _ v (bitOf_lt y)]
  next => rfl

/-- R141: SET_PIXEL in Buffered mode stays there; only a pixel on the display changes the framebuffer. -/
theorem exec_setPixel_fb {s : State} {m : Memory} (hs : s.mode = .buffered) (hm : s.fb = some m) (x y : Nat)
    (v : Bool) :
    ∃ t, exec (.setPixel x y v) s = .next t ∧ t.mode = .buffered ∧
      t.fb = some (if x < 128 ∧ y < 64 then setPixel m x y v else m) := by
  refine ⟨_, exec_setPixel hs hm x y v, ?_⟩
  split
  · exact ⟨hs, rfl⟩
  · exact ⟨hs, hm⟩

/-- Settles O18: CLEAR writes the same bytes again, SET_PIXEL the same bit, and out of bounds nothing changes. -/
theorem framebufferRequestsAreIdempotent : Obligations.FramebufferRequestsAreIdempotent := by
  rintro s m i hs hm hwf (rfl | ⟨x, y, v, rfl⟩)
  · exact ⟨_, _, exec_clear hs hm, exec_clear hs rfl, rfl⟩
  · obtain ⟨t, hfirst, ht, hfb⟩ := exec_setPixel_fb hs hm x y v
    obtain ⟨u, hsecond, -, hfb'⟩ := exec_setPixel_fb ht hfb x y v
    refine ⟨t, u, hfirst, hsecond, ?_⟩
    rw [hfb, hfb']
    by_cases hxy : x < 128 ∧ y < 64
    · simp only [if_pos hxy, setPixel_setPixel hwf hxy.1 hxy.2 v]
    · simp only [if_neg hxy]

end Sys2Proof.Machine

/-! SUPPORT. The statements of 30_encoding.md: what the two decoders read (R60 to R67, R71 to R76), that they and the
encoder are each other's inverse up to a column's other nibble (R62), what a request sends (R65 to R67, R79), and what a
step makes of the words on its port (R74, R76). -/

namespace Sys2Proof.Machine

/-! ## The wire decoder -/

/-- What the table of R60 says of its one-byte rows, checked over all of them and every byte: a byte of a row is the
encoding of the command that the row makes of it, and that command is no request. -/
theorem encode_of_commandRow : ∀ row ∈ commandRows, ∀ b : Byte, b &&& row.mask = row.pattern →
    (row.make b).wf = true → encode (row.make b) = some (.command [b]) ∧ (row.make b).isRequest = false := by
  decide

/-- R60, R66: one byte that the wire decoder accepts is of a row of the table, with its field in range. -/
theorem decodeCommand_one {b : Byte} {i : Instr} (h : decodeCommand [b] = .ok i) :
    ∃ row ∈ commandRows, b &&& row.mask = row.pattern ∧ (row.make b).wf = true ∧ i = row.make b := by
  simp only [decodeCommand] at h
  split at h
  next row hrow =>
    split at h
    next hwf =>
      exact ⟨row, List.mem_of_find?_eq_some hrow, by simpa using List.find?_some hrow, hwf, (Except.ok.inj h).symm⟩
    next => cases h
  next => cases h

/-- R63: two bytes are a command where the first is 0x81 and the second a volume. -/
theorem decodeCommand_two {op v : Byte} {i : Instr} :
    decodeCommand [op, v] = .ok i ↔ op = 0x81 ∧ v.toNat ≤ 63 ∧ i = .setVolume v.toNat := by
  have hv : v &&& 0xC0 = 0x00 ↔ v.toNat ≤ 63 := by revert v; decide
  simp only [decodeCommand, Bool.and_eq_true, beq_iff_eq, hv]
  split
  next h => simp [h, eq_comm]
  next h => exact ⟨nofun, fun ⟨hop, hvolume, _⟩ => absurd ⟨hop, hvolume⟩ h⟩

/-- R66: no command has another number of bytes. -/
theorem decodeCommand_length_ne {bytes : List Byte} (h1 : bytes.length ≠ 1) (h2 : bytes.length ≠ 2) :
    decodeCommand bytes = .error (.unlistedCommand bytes) := by
  match bytes with
  | [] => rfl
  | [_] => exact absurd rfl h1
  | [_, _] => exact absurd rfl h2
  | _ :: _ :: _ :: _ => rfl

/-- R60, R66, R67: the two forms of a command the wire decoder accepts. -/
theorem decodeCommand_cases {bytes : List Byte} {i : Instr} (h : decodeCommand bytes = .ok i) :
    (∃ b, bytes = [b] ∧ ∃ row ∈ commandRows, b &&& row.mask = row.pattern ∧ (row.make b).wf = true ∧ i = row.make b) ∨
    ∃ v : Byte, bytes = [0x81, v] ∧ v.toNat ≤ 63 ∧ i = .setVolume v.toNat := by
  match bytes with
  | [b] => exact .inl ⟨b, rfl, decodeCommand_one h⟩
  | [op, v] =>
    obtain ⟨rfl, hv, hi⟩ := decodeCommand_two.1 h
    exact .inr ⟨v, rfl, hv, hi⟩
  | [] => cases h
  | _ :: _ :: _ :: _ => cases h

/-- Whatever the wire decoder accepts is the encoding of the well-formed wire command it reads. -/
theorem decodeCommand_encode {bytes : List Byte} {i : Instr} (h : decodeCommand bytes = .ok i) :
    i.wf = true ∧ encode i = some (.command bytes) ∧ i.isRequest = false := by
  obtain ⟨b, rfl, row, hrow, hb, hwf, rfl⟩ | ⟨v, rfl, hv, rfl⟩ := decodeCommand_cases h
  · exact ⟨hwf, encode_of_commandRow row hrow b hb hwf⟩
  · refine ⟨by simpa [Instr.wf] using hv, ?_, rfl⟩
    simp [encode, Cmd.setVolume, hv]

/-! ## The request decoder -/

/-- R71, R72: the words the eight requests have, and what they spell with `src` on the source-buffer port. -/
inductive RequestSpelling (src : List Byte) : Word64 → Instr → Prop where
  | init : RequestSpelling src (opcodeWord 0x01) .init
  | reset : RequestSpelling src (opcodeWord 0x02) .reset
  | clear : RequestSpelling src (opcodeWord 0x03) .clear
  | setPixel (x y : Byte) (on : Bool) :
    RequestSpelling src (requestWord 0x04 x y 0 0 on) (.setPixel x.toNat y.toNat on)
  | draw : RequestSpelling src (opcodeWord 0x05) (.draw src)
  | boundedDraw (x0 y0 x1 y1 : Byte) :
    RequestSpelling src (requestWord 0x06 x0 y0 x1 y1 false) (.boundedDraw src x0.toNat y0.toNat x1.toNat y1.toNat)
  | flush : RequestSpelling src (opcodeWord 0x07) .flush
  | intoBuffered : RequestSpelling src (opcodeWord 0x08) .intoBuffered

/-- A word with an opcode and no other field is that opcode's word. -/
theorem eq_opcodeWord {w : Word64} {opc : Byte} (h : reqOpc w = opc ∧ w.extractLsb' 8 56 = 0) : w = opcodeWord opc := by
  have hw := (opcode_spells w opc).2 h
  rw [show (0xFFFFFFFFFFFFFFFF : Word64) = BitVec.allOnes 64 from rfl, BitVec.and_allOnes] at hw
  rw [hw]
  simp [opcodeWord, requestWord]

/-- A word with SET_PIXEL's opcode and the fields that it does not use 0 is the word of its coordinates. -/
theorem eq_setPixelWord {w : Word64} (h : reqOpc w = 0x04 ∧ w.extractLsb' 24 16 = 0 ∧ w.extractLsb' 41 23 = 0) :
    w = requestWord 0x04 (reqX0 w) (reqY0 w) 0 0 (reqOn w) := by
  obtain ⟨hopc, hunused, hreserved⟩ := h
  have hx1 : reqX1 w = 0 := extract_zero hunused (by decide) (by decide)
  have hy1 : reqY1 w = 0 := extract_zero hunused (by decide) (by decide)
  simpa only [hopc, hx1, hy1] using word_of_fields hreserved

/-- A word with BOUNDED_DRAW's opcode and the fields that it does not use 0 is the word of its corners. -/
theorem eq_boundedDrawWord {w : Word64} (h : reqOpc w = 0x06 ∧ w.extractLsb' 40 24 = 0) :
    w = requestWord 0x06 (reqX0 w) (reqY0 w) (reqX1 w) (reqY1 w) false := by
  obtain ⟨hopc, hunused⟩ := h
  have hon : reqOn w = false := extract_bit hunused (by decide) (by decide)
  simpa only [hopc, hon] using word_of_fields (extract_zero hunused (by decide) (by decide))

/-- R72: a word with SET_PIXEL's fields spells it. -/
theorem RequestSpelling.of_setPixel_fields {w : Word64} (src : List Byte)
    (h : reqOpc w = 0x04 ∧ w.extractLsb' 24 16 = 0 ∧ w.extractLsb' 41 23 = 0) :
    RequestSpelling src w (.setPixel (reqX0 w).toNat (reqY0 w).toNat (reqOn w)) := by
  have hspell := RequestSpelling.setPixel (src := src) (reqX0 w) (reqY0 w) (reqOn w)
  rwa [← eq_setPixelWord h] at hspell

/-- R72: a word with BOUNDED_DRAW's fields spells it. -/
theorem RequestSpelling.of_boundedDraw_fields {w : Word64} (src : List Byte)
    (h : reqOpc w = 0x06 ∧ w.extractLsb' 40 24 = 0) :
    RequestSpelling src w
      (.boundedDraw src (reqX0 w).toNat (reqY0 w).toNat (reqX1 w).toNat (reqY1 w).toNat) := by
  have hspell := RequestSpelling.boundedDraw (src := src) (reqX0 w) (reqY0 w) (reqX1 w) (reqY1 w)
  rwa [← eq_boundedDrawWord h] at hspell

/-- R72: the word of a SET_PIXEL has nothing in the fields of the second corner. -/
theorem secondCorner_requestWord (opc x y : Byte) (on : Bool) :
    (requestWord opc x y 0#8 0#8 on).extractLsb' 24 16 = 0 := by
  simp only [extract_eq_iff, requestWord, Fin.forall_fin_succ, Fin.forall_fin_zero]
  simp

/-- R72: the word of a BOUNDED_DRAW has nothing above its corners. -/
theorem aboveCorners_requestWord (opc x0 y0 x1 y1 : Byte) :
    (requestWord opc x0 y0 x1 y1 false).extractLsb' 40 24 = 0 := by
  simp only [extract_eq_iff, requestWord, Fin.forall_fin_succ, Fin.forall_fin_zero]
  simp

/-- R71, R74: the request decoder reads from a word exactly what the word spells. -/
theorem decodeRequest_iff {w : Word64} {src : List Byte} {i : Instr} :
    decodeRequest w src = .ok i ↔ RequestSpelling src w i := by
  constructor
  · intro h
    rw [decodeRequest_eq] at h
    split_ifs at h with h1 h2 h3 h4 h5 h6 h7 h8
    all_goals obtain rfl := Except.ok.inj h
    · exact eq_opcodeWord h1 ▸ .init
    · exact eq_opcodeWord h2 ▸ .reset
    · exact eq_opcodeWord h3 ▸ .clear
    · exact .of_setPixel_fields src h4
    · exact eq_opcodeWord h5 ▸ .draw
    · exact .of_boundedDraw_fields src h6
    · exact eq_opcodeWord h7 ▸ .flush
    · exact eq_opcodeWord h8 ▸ .intoBuffered
  · intro h
    cases h with
    | setPixel x y on =>
      simp [decodeRequest_eq, reqOpc_requestWord, reqX0_requestWord, reqY0_requestWord, reqOn_requestWord,
        secondCorner_requestWord, reserved_requestWord]
    | boundedDraw x0 y0 x1 y1 =>
      simp [decodeRequest_eq, reqOpc_requestWord, reqX0_requestWord, reqY0_requestWord, reqX1_requestWord,
        reqY1_requestWord, aboveCorners_requestWord]
    | _ => rfl

/-! ## The round trips -/

/-- A request word encodes the well-formed request that it spells, with some source buffer beside it. -/
theorem RequestSpelling.encode_eq {src : List Byte} {w : Word64} {i : Instr} (h : RequestSpelling src w i) :
    i.wf = true ∧ ∃ src', encode i = some (.request w src') ∧ RequestSpelling src' w i := by
  cases h with
  | init => exact ⟨rfl, [], rfl, .init⟩
  | reset => exact ⟨rfl, [], rfl, .reset⟩
  | clear => exact ⟨rfl, [], rfl, .clear⟩
  | draw => exact ⟨rfl, src, rfl, .draw⟩
  | flush => exact ⟨rfl, [], rfl, .flush⟩
  | intoBuffered => exact ⟨rfl, [], rfl, .intoBuffered⟩
  | setPixel x y on =>
    have hx : x.toNat < 256 := x.isLt
    have hy : y.toNat < 256 := y.isLt
    exact ⟨by simp [Instr.wf, hx, hy], [], by simp [encode, hx, hy], .setPixel x y on⟩
  | boundedDraw x0 y0 x1 y1 =>
    have hx0 : x0.toNat < 256 := x0.isLt
    have hy0 : y0.toNat < 256 := y0.isLt
    have hx1 : x1.toNat < 256 := x1.isLt
    have hy1 : y1.toNat < 256 := y1.isLt
    exact ⟨by simp [Instr.wf, hx0, hy0, hx1, hy1], src, by simp [encode, hx0, hy0, hx1, hy1], .boundedDraw x0 y0 x1 y1⟩

/-- Settles O2: by the two forms of a wire command and the eight request words. -/
theorem decodedWordsEncodeBack : Obligations.DecodedWordsEncodeBack := by
  refine ⟨fun bytes i h => ?_, fun w src i h => ?_⟩
  · obtain ⟨hwf, hencode, -⟩ := decodeCommand_encode h
    exact ⟨hwf, hencode⟩
  · obtain ⟨hwf, src', hencode, hspell⟩ := (decodeRequest_iff.1 h).encode_eq
    exact ⟨hwf, src', hencode, decodeRequest_iff.2 hspell⟩

theorem decode_resRatio : ∀ r ≤ 7, decodeCommand [BitVec.ofNat 8 (0x20 + r)] = .ok (.resRatio r) := by decide

theorem decode_startLine : ∀ l ≤ 63, decodeCommand [BitVec.ofNat 8 (0x40 + l)] = .ok (.startLine l) := by decide

/-- R62: one byte stands for all columns with its nibble. -/
theorem decode_colLo_nibble : ∀ n < 16, decodeCommand [BitVec.ofNat 8 n] = .ok (.colLo n) := by decide

theorem decode_colHi_nibble : ∀ n ≤ 8, decodeCommand [BitVec.ofNat 8 (0x10 + n)] = .ok (.colHi (n * 16)) := by decide

theorem decode_setVolume {v : Nat} (h : v ≤ 63) : decodeCommand [0x81, BitVec.ofNat 8 v] = .ok (.setVolume v) := by
  have hv : (BitVec.ofNat 8 v).toNat = v := by rw [BitVec.toNat_ofNat]; omega
  exact decodeCommand_two.2 ⟨rfl, by omega, by rw [hv]⟩

/-- R60, R62: a well-formed wire command has bytes, and they are read back as what its encoding carries. -/
theorem decodeCommand_of_wf {i : Instr} (hreq : i.isRequest = false) (hwf : i.wf = true) :
    ∃ bytes, i.command = some bytes ∧ decodeCommand bytes = .ok i.carried := by
  cases i with
  | resRatio r =>
    have hr : r ≤ 7 := by simpa [Instr.wf] using hwf
    exact ⟨_, resRatio_bytes r hr, decode_resRatio r hr⟩
  | setVolume v =>
    have hv : v ≤ 63 := by simpa [Instr.wf] using hwf
    exact ⟨_, if_pos hv, decode_setVolume hv⟩
  | startLine l =>
    have hl : l ≤ 63 := by simpa [Instr.wf] using hwf
    exact ⟨_, startLine_bytes l hl, decode_startLine l hl⟩
  | pageAddr p =>
    have hp : p ≤ 7 := by simpa [Instr.wf] using hwf
    exact ⟨_, pageAddr_bytes p hp, decode_pageAddr p (by omega)⟩
  | colLo c =>
    have hc : c ≤ 131 := by simpa [Instr.wf] using hwf
    exact ⟨_, colLo_bytes c hc, decode_colLo_nibble _ (by omega)⟩
  | colHi c =>
    have hc : c ≤ 131 := by simpa [Instr.wf] using hwf
    exact ⟨_, colHi_bytes c hc, decode_colHi_nibble _ (by omega)⟩
  | init | reset | clear | setPixel | draw | boundedDraw | flush | intoBuffered => cases hreq
  | _ => exact ⟨_, rfl, rfl⟩

/-- R71, R72: a well-formed request has a word, and that word spells it. -/
theorem RequestSpelling.of_wf {i : Instr} (hreq : i.isRequest = true) (hwf : i.wf = true) :
    ∃ w src, encode i = some (.request w src) ∧ RequestSpelling src w i := by
  cases i with
  | init => exact ⟨_, _, rfl, .init⟩
  | reset => exact ⟨_, _, rfl, .reset⟩
  | clear => exact ⟨_, _, rfl, .clear⟩
  | draw src => exact ⟨_, _, rfl, .draw⟩
  | flush => exact ⟨_, _, rfl, .flush⟩
  | intoBuffered => exact ⟨_, _, rfl, .intoBuffered⟩
  | setPixel x y on =>
    have h : x < 256 ∧ y < 256 := by simpa [Instr.wf] using hwf
    have hspell := RequestSpelling.setPixel (src := []) (BitVec.ofNat 8 x) (BitVec.ofNat 8 y) on
    simp only [BitVec.toNat_ofNat, Nat.mod_eq_of_lt h.1, Nat.mod_eq_of_lt h.2] at hspell
    exact ⟨_, _, if_pos h, hspell⟩
  | boundedDraw src x0 y0 x1 y1 =>
    have h : x0 < 256 ∧ y0 < 256 ∧ x1 < 256 ∧ y1 < 256 := by simpa [Instr.wf, and_assoc] using hwf
    have hspell := RequestSpelling.boundedDraw (src := src) (BitVec.ofNat 8 x0) (BitVec.ofNat 8 y0) (BitVec.ofNat 8 x1)
      (BitVec.ofNat 8 y1)
    obtain ⟨hx0, hy0, hx1, hy1⟩ := h
    simp only [BitVec.toNat_ofNat, Nat.mod_eq_of_lt hx0, Nat.mod_eq_of_lt hy0, Nat.mod_eq_of_lt hx1,
      Nat.mod_eq_of_lt hy1] at hspell
    exact ⟨_, _, if_pos ⟨hx0, hy0, hx1, hy1⟩, hspell⟩
  | _ => cases hreq

/-- R62: only a column command's encoding leaves something of its operand out. -/
theorem carried_eq_self {i : Instr} (hlo : ∀ k, i ≠ .colLo k) (hhi : ∀ k, i ≠ .colHi k) : i.carried = i := by
  cases i with
  | colLo c => exact absurd rfl (hlo c)
  | colHi c => exact absurd rfl (hhi c)
  | _ => rfl

theorem carried_of_isRequest {i : Instr} (hreq : i.isRequest = true) : i.carried = i :=
  carried_eq_self (by rintro k rfl; cases hreq) (by rintro k rfl; cases hreq)

/-- Settles O1: a wire command by its bytes, which are the encoding of what is read back from them, and a request by its
word, which carries all of it. -/
theorem encodedInstructionsDecodeBack : Obligations.EncodedInstructionsDecodeBack := by
  intro i hwf
  cases hreq : i.isRequest with
  | false =>
    obtain ⟨bytes, hbytes, hdecode⟩ := decodeCommand_of_wf hreq hwf
    obtain ⟨-, hcarried, -⟩ := decodeCommand_encode hdecode
    exact ⟨.command bytes, by rw [encode_command hreq, hbytes]; rfl, hdecode, hcarried, carried_eq_self⟩
  | true =>
    obtain ⟨w, src, hencode, hspell⟩ := RequestSpelling.of_wf hreq hwf
    rw [carried_of_isRequest hreq]
    exact ⟨.request w src, hencode, decodeRequest_iff.2 hspell, hencode, fun _ _ => rfl⟩

/-! ## The request words -/

/-- Settles O3: the words that spell a request are those of the eight opcodes with the unused fields 0. -/
theorem unusedRequestFieldsMustBeZero : Obligations.UnusedRequestFieldsMustBeZero := by
  intro w src
  constructor
  · rintro ⟨i, h⟩
    cases decodeRequest_iff.1 h with
    | setPixel x y on =>
      exact .inr (.inl ⟨reqOpc_requestWord .., secondCorner_requestWord .., reserved_requestWord ..⟩)
    | boundedDraw x0 y0 x1 y1 => exact .inr (.inr ⟨reqOpc_requestWord .., aboveCorners_requestWord ..⟩)
    | _ => exact .inl (by decide)
  · rintro (⟨hopc, hzero⟩ | hpixel | hcorners)
    · rcases hopc with hopc | hopc | hopc | hopc | hopc | hopc <;>
        exact ⟨_, by rw [eq_opcodeWord ⟨hopc, hzero⟩]; rfl⟩
    · exact ⟨_, decodeRequest_iff.2 (.of_setPixel_fields src hpixel)⟩
    · exact ⟨_, decodeRequest_iff.2 (.of_boundedDraw_fields src hcorners)⟩

/-- An 8-bit field of a word, as a natural number. -/
theorem toNat_field (w : Word64) (a : Nat) : (w.extractLsb' a 8).toNat = w.toNat / 2 ^ a % 256 := by
  rw [BitVec.extractLsb'_toNat, Nat.shiftRight_eq_div_pow]

/-- Settles O4: by the row of the decoder that accepts the word, whose opcode is no other row's. -/
theorem requestFieldsAreReadUnsigned : Obligations.RequestFieldsAreReadUnsigned := by
  intro w src i h
  rw [decodeRequest_eq] at h
  simp only [← toNat_field w]
  split_ifs at h with hrow hrow hrow hrow hrow hrow hrow hrow
  all_goals
    obtain rfl := Except.ok.inj h
    simp [hrow.1, reqX0, reqY0, reqX1, reqY1, reqOn]

/-- R73: every row's mask covers the opcode and its pattern is the opcode alone. -/
theorem requestRows_opcode : ∀ r ∈ requestRows, r.mask &&& 0xFF = 0xFF ∧ r.pattern &&& 0xFF = r.pattern := by decide

/-- R73: the pattern of a row that matches a word is the word's opcode. -/
theorem pattern_of_match {w : Word64} {r : RequestRow} (hr : r ∈ requestRows) (h : w &&& r.mask = r.pattern) :
    r.pattern = w &&& 0xFF := by
  obtain ⟨hmask, hpattern⟩ := requestRows_opcode r hr
  rw [← hpattern, ← h, BitVec.and_assoc, hmask]

/-- R73: a row of the table is known by its pattern. -/
theorem requestRow_ext {r r' : RequestRow} (hr : r ∈ requestRows) (hr' : r' ∈ requestRows)
    (h : r.pattern = r'.pattern) : r = r' :=
  List.inj_on_of_nodup_map (f := RequestRow.pattern) (by decide) hr hr' h

/-- R73, R74: a word decodes by the row that it matches. -/
theorem decodeRequest_iff_row {w : Word64} {src : List Byte} {i : Instr} :
    decodeRequest w src = .ok i ↔ ∃ r ∈ requestRows, w &&& r.mask = r.pattern ∧ i = r.make w src := by
  unfold decodeRequest
  split
  next r hfind =>
    have hr := List.mem_of_find?_eq_some hfind
    have hmatch : w &&& r.mask = r.pattern := by simpa [RequestRow.spells] using List.find?_some hfind
    constructor
    · intro h
      exact ⟨r, hr, hmatch, (Except.ok.inj h).symm⟩
    · rintro ⟨r', hr', hmatch', rfl⟩
      rw [requestRow_ext hr hr' ((pattern_of_match hr hmatch).trans (pattern_of_match hr' hmatch').symm)]
  next hnone =>
    constructor
    · intro h
      cases h
    · rintro ⟨r, hr, hmatch, -⟩
      exact absurd (decide_eq_true hmatch) (List.find?_eq_none.1 hnone r hr)

/-- Settles O5: rows that match one word have its opcode as their pattern. -/
theorem atMostOneRequestRowMatches : Obligations.AtMostOneRequestRowMatches := by
  refine ⟨rfl, fun src => rfl, ?_, fun _ _ _ => decodeRequest_iff_row⟩
  intro w r hr r' hr' h h'
  exact (pattern_of_match hr h).trans (pattern_of_match hr' h').symm

/-- Settles O8: only the words of DRAW and BOUNDED_DRAW spell something that depends on the source buffer. -/
theorem otherRequestsIgnoreTheSourcePort : Obligations.OtherRequestsIgnoreTheSourcePort := by
  intro w src src' i h hdraw hbounded
  refine decodeRequest_iff.2 ?_
  cases decodeRequest_iff.1 h with
  | init => exact .init
  | reset => exact .reset
  | clear => exact .clear
  | setPixel x y on => exact .setPixel x y on
  | draw => exact absurd rfl (hdraw src)
  | boundedDraw x0 y0 x1 y1 => exact absurd rfl (hbounded src _ _ _ _)
  | flush => exact .flush
  | intoBuffered => exact .intoBuffered

/-! ## The bytes of a wire command -/

/-- A wire command whose constructor gives bytes exactly where `p` holds is encoded exactly there. -/
theorem encode_of_command {i : Instr} {p : Prop} [Decidable p] {bytes : List Byte} (hreq : i.isRequest = false)
    (hin : p → i.command = some bytes) (hout : ¬ p → i.command = none) :
    encode i = if p then some (.command bytes) else none := by
  rw [encode_command hreq]
  split
  next h => rw [hin h]; rfl
  next h => rw [hout h]; rfl

/-- Settles O11: each constructor gives the bytes of its rule in its range and nothing outside it. -/
theorem fieldsAreAssembled : Obligations.FieldsAreAssembled := fun n =>
  ⟨encode_of_command rfl (colLo_bytes n) fun h => if_neg h, encode_of_command rfl (colHi_bytes n) fun h => if_neg h,
    encode_of_command rfl (resRatio_bytes n) fun h => if_neg h,
    encode_of_command rfl (startLine_bytes n) fun h => if_neg h,
    encode_of_command rfl (pageAddr_bytes n) fun h => if_neg h,
    encode_of_command rfl (fun h => if_pos h) fun h => if_neg h⟩

/-- R67: which of the two answers the wire decoder gives, as a test that runs. -/
theorem rejected_iff (bytes : List Byte) :
    (∃ e, decodeCommand bytes = .error e) ↔ (decodeCommand bytes).isOk = false := by
  cases decodeCommand bytes <;> simp [Except.isOk, Except.toBool]

/-- Settles O6: one byte by the table over all 256, two bytes by the rule of SET_VOLUME. -/
theorem unlistedWireBytesAreRejected : Obligations.UnlistedWireBytesAreRejected := by
  refine ⟨?_, fun op v => ?_, fun bytes h1 h2 => ⟨_, decodeCommand_length_ne h1 h2⟩⟩
  · simp only [rejected_iff]
    decide
  · simp only [decodeCommand_two]
    exact ⟨fun ⟨_, hop, hv, _⟩ => ⟨hop, hv⟩, fun ⟨hop, hv⟩ => ⟨_, hop, hv, rfl⟩⟩

/-- Settles O7: the decoders run on the ten words. -/
theorem writtenOutWordsDecode : Obligations.WrittenOutWordsDecode :=
  ⟨rfl, rfl, rfl, rfl, rfl, rfl, rfl, rfl, rfl, rfl⟩

/-! ## What a request sends -/

/-- Settles O27: both send the whole display from the same source. -/
theorem drawIsTheWholeBoundedDraw : Obligations.DrawIsTheWholeBoundedDraw := by
  intro src s hlen
  rw [exec_draw, exec_boundedDraw, if_pos hlen, if_pos (by decide), if_pos hlen]
  rfl

/-- R66: a command has two bytes where its first is 0x81 and one otherwise. -/
theorem decodeCommand_length {bytes : List Byte} {i : Instr} (h : decodeCommand bytes = .ok i) :
    bytes.length = if bytes.head? = some 0x81 then 2 else 1 := by
  obtain ⟨b, rfl, -⟩ | ⟨v, rfl, -⟩ := decodeCommand_cases h
  · have hb : b ≠ 0x81 := by rintro rfl; cases h
    rw [if_neg (by simpa using hb)]
    rfl
  · rfl

/-- R6, R118: the bytes are neither DISPLAY_OFF nor the column nibble of the columns from 128 on, which are
listed and which no request sends. -/
abbrev Sendable (bytes : List Byte) : Prop := bytes ≠ [0xAE] ∧ bytes ≠ [0x18]

theorem flushWrites_sendable (source : Source) {r : Rect} (hv : r.valid = true) :
    ∀ w ∈ flushWrites source r, w.1 = .cmd → Sendable w.2 := by
  have page : ∀ p < 8, Sendable [BitVec.ofNat 8 (0xB0 + p)] := by decide
  have low : ∀ c < 128, Sendable [BitVec.ofNat 8 (c % 16)] := by decide
  have high : ∀ c < 128, Sendable [BitVec.ofNat 8 (0x10 + c / 16)] := by decide
  intro w hw hcmd
  have hx := ((valid_iff r).1 hv).1
  obtain ⟨p, hp, hw⟩ := mem_flushWrites hv hw
  simp only [pageWrites, List.mem_cons, List.not_mem_nil, or_false] at hw
  rcases hw with rfl | rfl | rfl | rfl
  · exact page p hp
  · exact low _ hx
  · exact high _ hx
  · cases hcmd

/-- R7, R8: INIT's first nine commands are neither of the two, whatever its parameters. -/
theorem initFirstWrites_sendable : ∀ w ∈ initFirstWrites, Sendable w.2 := by
  have ratio : ∀ r < 8, Sendable [BitVec.ofNat 8 (0x20 + r)] := by decide
  have bias : ∀ b, Sendable [biasByte b] := fun b => by cases b <;> decide
  have seg : ∀ d, Sendable [segByte d] := fun d => by cases d <;> decide
  have com : ∀ d, Sendable [comByte d] := fun d => by cases d <;> decide
  have stage : ∀ p, Sendable [stageByte p] := fun p => by cases p <;> decide
  have volume : Sendable [0x81, 0x28] := by decide
  have line : Sendable [0x40] := by decide
  intro w hw
  simp only [initFirstWrites, List.mem_cons, List.not_mem_nil, or_false] at hw
  rcases hw with rfl | rfl | rfl | rfl | rfl | rfl | rfl | rfl | rfl
  exacts [bias _, seg _, com _, ratio _ Config.pRatio.isLt, volume, stage _, stage _, stage _, line]

/-- R6, R118: no command of a request that passed its checks is one of the two. -/
theorem Job.writes_sendable {j : Job} (h : j.ok) : ∀ w ∈ j.writes, w.1 = .cmd → Sendable w.2 := by
  intro w hw hcmd
  cases j with
  | flush source rect => exact flushWrites_sendable source h w hw hcmd
  | reset =>
    obtain rfl := List.mem_singleton.1 hw
    decide
  | init =>
    rcases List.mem_append.1 hw with hw | hw
    · rcases List.mem_append.1 hw with hw | hw
      · exact initFirstWrites_sendable w hw
      · exact flushWrites_sendable .zero valid_whole w hw hcmd
    · obtain rfl := List.mem_singleton.1 hw
      decide

/-- R65, R66, R67: what the block may write: a listed command of its length that is neither of the two, or data of
at most a page row. -/
def ListedWrite (w : Write) : Prop :=
  (w.1 = .cmd → (∃ c, decodeCommand w.2 = .ok c) ∧ w.2.length = (if w.2.head? = some 0x81 then 2 else 1) ∧
    w.2 ≠ [0xAE] ∧ w.2 ≠ [0x18]) ∧
  (w.1 = .data → 1 ≤ w.2.length ∧ w.2.length ≤ 128)

/-- Every write of a request that passed its checks is a listed one. -/
theorem Job.writes_listed {j : Job} (h : j.ok) (hf : j.source.full) : ∀ w ∈ j.writes, ListedWrite w := by
  rintro ⟨kind, bytes⟩ hw
  have hlegal := legal_job h hf _ hw .ok
  cases kind with
  | cmd =>
    obtain ⟨c, hc⟩ : ∃ c, decodeCommand bytes = .ok c := hlegal
    have hsent := Job.writes_sendable h _ hw rfl
    exact ⟨fun _ => ⟨⟨c, hc⟩, decodeCommand_length hc, hsent⟩, nofun⟩
  | data => exact ⟨nofun, fun _ => hlegal⟩

/-- What a request adds to the trace is nothing, or listed writes. -/
theorem exec_listedWrites {i : Instr} (hreq : i.isRequest = true) {s t : State} (h : exec i s = .next t) :
    ∃ es, t.trace = s.trace ++ es ∧ ∀ e ∈ es, ListedWrite (e.kind, e.bytes) := by
  cases exec_effect h with
  | command hcmd => simp [hreq] at hcmd
  | ends r _ ht => exact ⟨[], by simp [ht], by simp⟩
  | framebuffer mode m _ ht => exact ⟨[], by simp [ht], by simp⟩
  | writes ws hws ht =>
    have hlisted : ∀ w ∈ ws, ListedWrite w := by
      rcases hws with ⟨-, rfl⟩ | ⟨-, rfl⟩ | ⟨src, -, hl, rfl⟩ | ⟨src, x0, y0, x1, y1, -, hv, hl, rfl⟩ |
        ⟨m, -, -, -, rfl⟩
      · exact Job.writes_listed (j := .init) trivial trivial
      · exact Job.writes_listed (j := .reset) trivial trivial
      · exact Job.writes_listed (j := .flush (.src src) Rect.whole) valid_whole hl
      · exact Job.writes_listed (j := .flush (.src src) ⟨x0, y0, x1, y1⟩) hv hl
      · exact Job.writes_listed (j := .flush (.fb m) Rect.whole) valid_whole trivial
    obtain ⟨es, htrace, hmem⟩ := finish_trace ws s
    exact ⟨es, by rw [ht, htrace], fun e he => hlisted _ (hmem e he)⟩

/-- Settles O49: what a request that passed its checks writes is listed, and any other writes nothing. -/
theorem requestsEmitOnlyListedCommands : Obligations.RequestsEmitOnlyListedCommands :=
  fun _ _ _ hreq h => exec_listedWrites hreq h

/-! ## Words on the request port -/

/-- R74: a step of a running state with no request under way ends refused where what is at the head of the port spells
no request. -/
theorem step_reject {s : State} (h : s.Running) (hs : s.seq = none) {item : PortItem} {rest : List PortItem}
    {r : RefusalReason} (hp : s.port = item :: rest) (hi : item.request = .error r) :
    step s = .next (({ s with port := rest } : State).refusedFor r) := by
  simp [step, h.1, h.2, hs, fetch, hp, hi, endRequest, State.refusedFor]

/-- R74: a word beside its source buffer on the port is the request that the decoder reads. -/
theorem request_word_ok {w : Word64} {src : List Byte} {i : Instr} (h : decodeRequest w src = .ok i) :
    (PortItem.word w src).request = .ok i := by simp [PortItem.request, h]

/-- R74: a word that the decoder rejects is an encoding refusal that records it. -/
theorem request_word_error {w : Word64} {src : List Byte} (h : ¬ ∃ i, decodeRequest w src = .ok i) :
    (PortItem.word w src).request = .error (.encoding w) := by
  cases hd : decodeRequest w src with
  | ok i => exact absurd ⟨i, hd⟩ h
  | error e => simp [PortItem.request, hd]

/-- Settles O56: such a word is one that the decoder rejects. -/
theorem reservedWordIsRefused : Obligations.ReservedWordIsRefused := by
  intro s w src rest hr hs hp hreserved
  exact step_reject hr hs hp (request_word_error (mt (unusedRequestFieldsMustBeZero w src).1 hreserved))

/-! ## A wire command due in a request under way -/

/-- R60, R76: what is due as a command is a wire command. -/
theorem isRequest_of_due {j : Job} (h : j.ok) {q : Sequencer} (hq : q ∈ j.positions) {i : Instr}
    (hi : j.due q = .command i) : i.isRequest = false := by
  obtain ⟨w, -, hw⟩ := due_mem_writes h hq
  rw [hi] at hw
  cases i with
  | init | reset | clear | setPixel | draw | boundedDraw | flush | intoBuffered => cases hw
  | _ => rfl

/-- A step of a request under way at a wire command runs the command's meaning and moves on from the state it leaves. -/
theorem step_due_command {s : State} (hr : s.Running) {q : Sequencer} {j : Job} {i : Instr} (hs : s.seq = some q)
    (hj : underWay s = some j) (hq : q ∈ j.positions) (hi : j.due q = .command i) :
    ∃ t, exec i s = .next t ∧ step s = .next (moveOn j q t) := by
  have hexec := exec_command (isRequest_of_due (underWay_job hj).1 hq hi) s
  refine ⟨_, hexec, ?_⟩
  simp only [step_goOn hr hs hj hq, goOn, hi, hexec, thenMoveOn]

/-- A command that ended the request takes it off the port. -/
theorem moveOn_ended {j : Job} {q : Sequencer} {t : State} (h : t.seq = none) :
    moveOn j q t = { t with port := t.port.tail } := by
  simp [moveOn, h, State.leavePort]

/-- A command answered `ok` is followed by the next position. -/
theorem moveOn_next {j : Job} {q q' : Sequencer} {t : State} (h : t.seq ≠ none) (hq' : j.advance q = some q') :
    moveOn j q t = { t with seq := some q' } := by
  obtain ⟨p, hp⟩ := Option.ne_none_iff_exists'.1 h
  simp [moveOn, hp, hq']

/-- The last command answered `ok` is followed by the end of the request. -/
theorem moveOn_last {j : Job} {q : Sequencer} {t : State} (h : t.seq ≠ none) (hlast : j.advance q = none) :
    moveOn j q t = { endRequest .ok t with port := t.port.tail } := by
  obtain ⟨p, hp⟩ := Option.ne_none_iff_exists'.1 h
  simp [moveOn, hp, hlast, State.leavePort]

/-- Settles O52: with no request under way by what the port's head spells, otherwise by the command that is due. -/
theorem stepRunsTheDecodedInstruction : Obligations.StepRunsTheDecodedInstruction := by
  intro s hr
  refine ⟨fun w src rest i hs hp hi => ?_, fun r rest hs hp => ?_, fun q j i hs hj hq hi => ?_⟩
  · exact step_run hr hs hp (request_word_ok hi)
  · exact step_run hr hs hp rfl
  · obtain ⟨t, hexec, hstep⟩ := step_due_command hr hs hj hq hi
    refine ⟨t, hexec, fun hended => ?_, fun q' hgoing hnext => ?_, fun hgoing hlast => ?_⟩
    · rw [hstep, moveOn_ended hended]
    · rw [hstep, moveOn_next hgoing hnext]
    · rw [hstep, moveOn_last hgoing hlast]

/-! ## A table word where the next step takes it -/

/-- The command of INIT that is found is at its place in the list. -/
theorem initPlace_spec {ks : List Nat} {i : Instr} {r : Request} {q : Sequencer} (h : initPlace ks i = some (r, q)) :
    r = .init ∧ ∃ k, q = .initCommand k ∧ initCommands[k]? = some i := by
  obtain ⟨k, hk, heq⟩ := Option.map_eq_some_iff.1 h
  obtain ⟨rfl, rfl⟩ := Prod.mk.inj heq
  exact ⟨rfl, k, rfl, by simpa using List.find?_some hk⟩

/-- R31, R162: the four positions of each page that a rectangle touches are positions of its flush. -/
theorem mem_positions {r : Rect} {p : Nat} (hfirst : r.firstPage ≤ p) (hlast : p ≤ r.lastPage) (phase : Phase) :
    .flush p phase ∈ r.positions := by
  have hp : p ∈ List.range' r.firstPage r.pageCount := by
    rw [List.mem_range'_1, Rect.pageCount]
    omega
  exact List.mem_flatMap.2 ⟨p, hp, by cases phase <;> simp [pagePositions]⟩

/-- In every state the request `r` passes its checks, and the command `i` is due at its position `q`. -/
def SendsAt (r : Request) (q : Sequencer) (i : Instr) : Prop :=
  ∃ j : Job, (∀ s, jobOf s r.toInstr = some j) ∧ q ∈ j.positions ∧ j.due q = .command i

/-- R194, R195: the commands of INIT's list are due at their numbers. -/
theorem sendsAt_initCommand {k : Nat} {i : Instr} (h : initCommands[k]? = some i) :
    SendsAt .init (.initCommand k) i := by
  obtain ⟨hk, -⟩ := List.getElem?_eq_some_iff.1 h
  exact ⟨.init, fun _ => rfl, by simp [Job.positions, hk], by simp [Job.due, List.getD, h]⟩

/-- R160: the BOUNDED_DRAW of one column in the top page passes its checks. -/
theorem jobOf_oneColumn {c : Nat} (hc : c < 128) (s : State) :
    jobOf s (Request.boundedDraw tableSrc c 0 c 0).toInstr = some (.flush (.src tableSrc) ⟨c, 0, c, 0⟩) := by
  have hv : Rect.valid ⟨c, 0, c, 0⟩ = true := (valid_iff _).2 ⟨hc, by simp, hc, by simp⟩
  have hlen : tableSrc.length = Config.bufSize := List.length_replicate
  simp only [Request.toInstr, jobOf, hv, hlen, decide_true, Bool.and_self, if_true]

/-- R162: that BOUNDED_DRAW goes through the positions of page 0. -/
theorem oneColumn_position (c : Nat) (phase : Phase) : .flush 0 phase ∈ Rect.positions ⟨c, 0, c, 0⟩ :=
  mem_positions (r := ⟨c, 0, c, 0⟩) (show 0 / 8 ≤ 0 by decide) (Nat.zero_le _) phase

/-- Where a wire command is placed, the request sends it. -/
theorem place_spec {i : Instr} {r : Request} {q : Sequencer} (h : place i = some (r, q)) : SendsAt r q i := by
  have of_init {ks : List Nat} (h : initPlace ks i = some (r, q)) : SendsAt r q i := by
    obtain ⟨rfl, k, rfl, hk⟩ := initPlace_spec h
    exact sendsAt_initCommand hk
  cases i with
  | pageAddr p =>
    obtain ⟨hp, heq⟩ := Option.ite_none_right_eq_some.1 h
    obtain ⟨rfl, rfl⟩ := Prod.mk.inj (Option.some.inj heq)
    have hpos : .flush p .page ∈ Rect.whole.positions := mem_positions (Nat.zero_le p) (Nat.le_of_lt_succ hp) .page
    exact ⟨.init, fun _ => rfl, by simp [Job.positions, hpos], rfl⟩
  | colLo c =>
    obtain ⟨hc, heq⟩ := Option.ite_none_right_eq_some.1 h
    obtain ⟨rfl, rfl⟩ := Prod.mk.inj (Option.some.inj heq)
    exact ⟨_, jobOf_oneColumn hc, oneColumn_position c _, rfl⟩
  | colHi c =>
    obtain ⟨hc, heq⟩ := Option.ite_none_right_eq_some.1 h
    obtain ⟨rfl, rfl⟩ := Prod.mk.inj (Option.some.inj heq)
    exact ⟨_, jobOf_oneColumn hc, oneColumn_position c _, rfl⟩
  | displayOn =>
    obtain ⟨rfl, rfl⟩ := Prod.mk.inj (Option.some.inj h)
    exact ⟨.init, fun _ => rfl, by simp [Job.positions], rfl⟩
  | swReset =>
    obtain ⟨rfl, rfl⟩ := Prod.mk.inj (Option.some.inj h)
    exact ⟨.reset, fun _ => rfl, by simp [Job.positions], rfl⟩
  | bias19 | bias17 | segNormal | segReverse | comNormal | comReverse | resRatio | setVolume | pwrCtrl2C | pwrCtrl2E
  | pwrCtrl2F | startLine => exact of_init h
  | _ => cases h

/-- Only wire commands are placed as a write due. -/
theorem isRequest_of_place {i : Instr} {r : Request} {q : Sequencer} (h : place i = some (r, q)) :
    i.isRequest = false := by
  cases i with
  | init | reset | clear | setPixel | draw | boundedDraw | flush | intoBuffered => cases h
  | _ => rfl

/-- A table word that decodes has words, and they decode to the same instruction. -/
theorem decodeTableWord_some {nbits w : Nat} {i : Instr} (h : decodeTableWord nbits w = some i) :
    ∃ c, decode c = .ok i ∧ ∀ s : State, s.withFetchWord nbits w = placeCode c s := by
  unfold decodeTableWord at h
  split at h
  next c hcode =>
    split at h
    next i' hdecode =>
      obtain rfl := Option.some.inj h
      exact ⟨c, hdecode, fun s => by simp only [State.withFetchWord, hcode]⟩
    next => cases h
  next => cases h

/-- A request word that decodes is what the step after its placement runs. -/
theorem step_placeCode_request {w : Word64} {src : List Byte} {i : Instr} (h : decodeRequest w src = .ok i)
    (s : State) :
    step (placeCode (.request w src) s) = exec i { s with seq := none, refused := none, faulted := none } :=
  step_run ⟨rfl, rfl⟩ rfl rfl (request_word_ok h)

/-- A wire command that a request sends is due in the state that its placement gives. -/
theorem placeCode_command {bytes : List Byte} {i : Instr} (h : decodeCommand bytes = .ok i) {r : Request}
    {q : Sequencer} (hp : place i = some (r, q)) (s : State) :
    placeCode (.command bytes) s =
      { s with port := .abstract r :: s.port, seq := some q, refused := none, faulted := none } := by
  simp only [placeCode, h, hp]

/-- Settles O58: a request word by the step that takes it from the port, a wire command by the step at its position in
the request that `place` names. -/
theorem placedTableWordRuns : Obligations.PlacedTableWordRuns := by
  intro s nbits w i h
  obtain ⟨c, hdecode, hfetch⟩ := decodeTableWord_some h
  rw [hfetch]
  cases c with
  | request w src =>
    have hreq : i.isRequest = true := request_isRequest (request_word_ok hdecode)
    refine ⟨fun _ => step_placeCode_request hdecode s, fun r q hp => ?_, fun hcmd => ?_⟩
    · simp [isRequest_of_place hp] at hreq
    · simp [hreq] at hcmd
  | command bytes =>
    obtain ⟨-, -, hcmd⟩ := decodeCommand_encode hdecode
    refine ⟨fun hreq => ?_, fun r q hp => ?_, fun _ hp => ?_⟩
    · simp [hcmd] at hreq
    · have hplaced := placeCode_command hdecode hp s
      obtain ⟨j, hjob, hq, hdue⟩ := place_spec hp
      have hj : underWay (placeCode (.command bytes) s) = some j := by rw [hplaced]; exact hjob _
      obtain ⟨t, hexec, hstep⟩ := step_due_command (by rw [hplaced]; exact ⟨rfl, rfl⟩) (by rw [hplaced]) hj hq hdue
      exact ⟨hplaced, j, t, hj, hq, hdue, hexec, hstep⟩
    · have hdecode : decodeCommand bytes = .ok i := hdecode
      simp only [placeCode, hdecode, hp]

end Sys2Proof.Machine

/-! SUPPORT. The statements of 41_command_encoder.md: a wire command by itself is the one command write of its
constructor's bytes (R100 to R119, log entry 4), a field out of range writes nothing (R120), and no step emits what the
block never sends (R6, R118). -/

namespace Sys2Proof.Machine

/-! ## A wire command by itself -/

/-- R100: a wire command whose write is answered `ok` leaves that write in the trace, and all else as it was. -/
theorem exec_command_ok {i : Instr} {bytes : List Byte} {s : State} (hcmd : i.isRequest = false)
    (hbytes : i.command = some bytes) (h : s.answer .cmd bytes = .ok) :
    exec i s = .next { s with trace := s.trace ++ [⟨.cmd, bytes, .ok⟩], answers := s.answers.drop 1 } := by
  rw [exec_command hcmd, hbytes, afterWrite_ok h, List.drop_one]
  rfl

/-- R100, R222: a wire command whose write is answered `err` ends the request at that write. -/
theorem exec_command_err {i : Instr} {bytes : List Byte} {s : State} {e : TransportError} (hcmd : i.isRequest = false)
    (hbytes : i.command = some bytes) (h : s.answer .cmd bytes = .err e) :
    exec i s = .next (s.failedAt [] (.cmd, bytes) e) := by
  rw [exec_command hcmd, hbytes, afterWrite_err h]

/-- R120: a wire command whose constructor gives no bytes ends the request faulted. -/
theorem exec_command_none {i : Instr} (hcmd : i.isRequest = false) (hbytes : i.command = none) (s : State) :
    exec i s = .next (s.faultedFor .commandRange) := by
  rw [exec_command hcmd, hbytes, afterWrite_none]

/-- R60, R71: what is encoded as the bytes of a command write is a wire command, and they are its constructor's. -/
theorem command_of_encode {i : Instr} {bytes : List Byte} (h : encode i = some (.command bytes)) :
    i.isRequest = false ∧ i.command = some bytes := by
  cases hreq : i.isRequest with
  | false => exact ⟨rfl, by simpa [encode_command hreq] using h⟩
  | true =>
    cases i with
    | init | reset | clear | draw | flush | intoBuffered => cases h
    | setPixel | boundedDraw => cases (Option.ite_none_right_eq_some.1 h).2
    | _ => cases hreq

/-- Settles O9: each of the twelve pairs is a wire command and the byte its constructor gives. -/
theorem plainCommandsWriteTheirByte : Obligations.PlainCommandsWriteTheirByte := by
  intro c hc s
  obtain ⟨hcmd, hbytes⟩ : c.1.isRequest = false ∧ c.1.command = some [c.2] := by revert c; decide
  exact exec_command_ok hcmd hbytes

/-- Settles O10: in range each constructor gives the bytes of its rule. -/
theorem fieldCommandsWriteTheirField : Obligations.FieldCommandsWriteTheirField := fun _ n =>
  ⟨fun h => exec_command_ok rfl (resRatio_bytes n h), fun h => exec_command_ok rfl (if_pos h),
    fun h => exec_command_ok rfl (startLine_bytes n h), fun h => exec_command_ok rfl (pageAddr_bytes n h),
    fun h => exec_command_ok rfl (colLo_bytes n h), fun h => exec_command_ok rfl (colHi_bytes n h)⟩

/-- Settles O12: out of range no constructor gives bytes. -/
theorem outOfRangeFieldsFault : Obligations.OutOfRangeFieldsFault := fun s _ =>
  have fault {i : Instr} (hcmd : i.isRequest = false) (hbytes : i.command = none) := exec_command_none hcmd hbytes s
  ⟨fun h => ⟨fault rfl (if_neg h.not_ge), fault rfl (if_neg h.not_ge)⟩,
    fun h => ⟨fault rfl (if_neg h.not_ge), fault rfl (if_neg h.not_ge)⟩,
    fun h => ⟨fault rfl (if_neg h.not_ge), fault rfl (if_neg h.not_ge)⟩⟩

/-- Settles O13: the encoding that is a command write is made of the constructor's bytes. -/
theorem failedCommandEndsTheRequest : Obligations.FailedCommandEndsTheRequest := by
  intro i bytes s e hencode herr
  obtain ⟨hcmd, hbytes⟩ := command_of_encode hencode
  exact exec_command_err hcmd hbytes herr

/-! ## What no step emits -/

/-- Settles O54: a step makes one write of a request that passed its checks, or runs a request whole, or writes
nothing. -/
theorem noStepEmitsAnUnlistedCommand : Obligations.NoStepEmitsAnUnlistedCommand := by
  intro s t h
  obtain ⟨-, -, ⟨q, j, hs, hj, hq, hgo⟩ | ⟨-, ⟨-, rfl⟩ | ⟨i, s', hf, hexec⟩ | ⟨r, s', hf, rfl⟩⟩⟩ := step_cases h
  · obtain ⟨hok, hfull⟩ := underWay_job hj
    obtain ⟨w, hw, htrace, -⟩ := goOn_leaves hok hq hs hgo
    refine ⟨_, htrace, fun e he => ?_⟩
    obtain rfl := List.mem_singleton.1 he
    exact Job.writes_listed hok hfull w hw
  · exact ⟨[], by simp, by simp⟩
  · obtain ⟨item, rest, -, hi, rfl⟩ := fetch_run hf
    exact exec_listedWrites (s := { s with port := rest }) (request_isRequest hi) hexec
  · obtain ⟨item, rest, -, -, rfl⟩ := fetch_reject hf
    exact ⟨[], by simp, by simp⟩

end Sys2Proof.Machine

/-! SUPPORT. The statements of 42_framebuffer.md: what CLEAR (R140, R144) and SET_PIXEL (R141, R143) do to the
framebuffer, byte by byte and pixel by pixel, and where they end otherwise. -/

namespace Sys2Proof.Machine

/-! ## CLEAR -/

/-- R144: in a zeroed framebuffer every pixel is off. -/
@[simp] theorem pixel_zeroed (x y : Nat) : pixel Memory.zeroed x y = false := by simp [pixel]

/-- R140: the mode gate refuses CLEAR. -/
theorem exec_clear_refused {s : State} (h : s.mode = .directWrite) :
    exec .clear s = .next (s.refusedFor .modeGate) := by
  unfold exec execClear
  exact gated_refuse (by simp [h])

/-- Settles O14: CLEAR puts the zeroed framebuffer in the place of the one before. -/
theorem clearZeroesEveryByte : Obligations.ClearZeroesEveryByte :=
  ⟨fun _ => decodeRequest_iff.2 .clear,
    fun _ _ hs hm => ⟨_, exec_clear hs hm, wf_zeroed, read_zeroed⟩,
    fun _ => exec_clear_refused⟩

/-- Settles O15: the framebuffer that CLEAR leaves is the zeroed one. -/
theorem clearedPixelsAreOff : Obligations.ClearedPixelsAreOff :=
  fun _ _ hs hm => ⟨_, _, exec_clear hs hm, rfl, fun x y _ _ => pixel_zeroed x y⟩

/-! ## SET_PIXEL, by bytes -/

/-- R141: the rule's formula, with the new bit read as a natural number. -/
theorem replaceBit_eq (b : Byte) (k : Nat) (on : Bool) :
    replaceBit b k on = (b &&& ~~~((1 : Byte) <<< k)) ||| (BitVec.ofNat 8 on.toNat <<< k) := by
  cases on <;> rfl

/-- R141: SET_PIXEL rewrites the byte that holds its pixel. -/
theorem read_setPixel_same {m : Memory} (h : m.wf = true) (x y : Nat) (on : Bool) :
    (setPixel m x y on).read (indexOf x y) = replaceBit (m.read (indexOf x y)) (bitOf y) on := by
  rw [read_setPixel h, if_pos rfl]

/-- R141: SET_PIXEL rewrites no other byte. -/
theorem read_setPixel_ne {m : Memory} (h : m.wf = true) {x y a : Nat} (ha : a ≠ indexOf x y) (on : Bool) :
    (setPixel m x y on).read a = m.read a := by
  rw [read_setPixel h, if_neg ha]

/-- R141: a pixel on the display changes the framebuffer. -/
theorem exec_setPixel_valid {s : State} {m : Memory} (h : s.mode = .buffered) (hm : s.fb = some m) {x y : Nat}
    (hx : x < 128) (hy : y < 64) (on : Bool) :
    exec (.setPixel x y on) s =
      .next { s with fb := some (setPixel m x y on), rpc := s.rpc + 1, response := some .ok, seq := none } := by
  rw [exec_setPixel h hm, if_pos ⟨hx, hy⟩]

/-- R141: the bounds are checked before the framebuffer is looked at, so this needs none. -/
theorem exec_setPixel_invalid {s : State} (h : s.mode = .buffered) {x y : Nat} (hxy : 128 ≤ x ∨ 64 ≤ y) (on : Bool) :
    exec (.setPixel x y on) s = .next s.outOfBounds := by
  have hv : ¬ validPixel x y = true := by
    simp only [validPixel, Config.width, Config.height, Bool.and_eq_true, decide_eq_true_eq]
    omega
  simp only [exec, execSetPixel, gated_pass h, if_neg hv]
  rfl

/-- R141: the mode gate refuses SET_PIXEL before its operands are looked at. -/
theorem exec_setPixel_refused {s : State} (h : s.mode = .directWrite) (x y : Nat) (on : Bool) :
    exec (.setPixel x y on) s = .next (s.refusedFor .modeGate) := by
  unfold exec execSetPixel
  exact gated_refuse (by simp [h])

/-- Settles O16: the byte of the pixel gets the rule's formula, every other one is read as before. -/
theorem setPixelReplacesOneBit : Obligations.SetPixelReplacesOneBit := by
  refine ⟨fun w src hopc hunused hreserved => ?_, fun s m x y on hs hm hwf hx hy => ?_,
    fun s x y on hs hxy => exec_setPixel_invalid hs hxy on, fun s x y on hs => exec_setPixel_refused hs x y on⟩
  · exact decodeRequest_iff.2 (.of_setPixel_fields src ⟨hopc, hunused, hreserved⟩)
  · refine ⟨_, exec_setPixel_valid hs hm hx hy on, wf_setPixel hwf hx hy on, Nat.le_of_lt_succ (indexOf_lt hx hy),
      ?_, fun a ha => read_setPixel_ne hwf ha on⟩
    exact (read_setPixel_same hwf x y on).trans (replaceBit_eq _ _ on)

/-! ## SET_PIXEL, by pixels -/

/-- R143: SET_PIXEL changes its own pixel and no other; another pixel of the same byte is another bit of it. -/
theorem pixel_setPixel {m : Memory} (h : m.wf = true) {x x' : Nat} (hx : x < 128) (hx' : x' < 128) (y y' : Nat)
    (v : Bool) :
    pixel (setPixel m x y v) x' y' = if (x', y') = (x, y) then v else pixel m x' y' := by
  by_cases hi : indexOf x' y' = indexOf x y
  · have hbit : bitOf y' = bitOf y ↔ (x', y') = (x, y) :=
      ⟨fun hb => Prod.ext_iff.2 (indexOf_inj hx' hx hi hb), fun hp => congrArg bitOf (Prod.mk.inj hp).2⟩
    simp only [pixel, hi, read_setPixel_same h, replaceBit_getLsbD _ v (bitOf_lt y) (bitOf_lt y'), hbit]
  · have hp : (x', y') ≠ (x, y) := by
      rintro ⟨⟩
      exact hi rfl
    rw [pixel, read_setPixel_ne h hi, if_neg hp, pixel]

/-- Settles O17: by what SET_PIXEL does to each pixel; out of bounds the framebuffer is not touched. -/
theorem setPixelHasNoCrossTalk : Obligations.SetPixelHasNoCrossTalk := by
  intro s m x y v hs hm hwf
  refine ⟨fun hx hy => ⟨_, _, exec_setPixel_valid hs hm hx hy v, hs, rfl, wf_setPixel hwf hx hy v, ?_, ?_⟩,
    fun hxy => ⟨_, exec_setPixel_invalid hs hxy v, hm⟩⟩
  · rw [pixel_setPixel hwf hx hx, if_pos rfl]
  · intro x' y' hx' _ hne
    rw [pixel_setPixel hwf hx hx', if_neg hne]

end Sys2Proof.Machine

/-! SUPPORT. The statements of 43_region_flush.md: the sequencer's run is the page loop (R160) and where it stands at a
failing write (R169), what DRAW, BOUNDED_DRAW and FLUSH leave (R164 to R166), how many writes they make (R167, R168), and
what those writes decode to and send again (R171, R172). -/

namespace Sys2Proof.Machine

/-! ## The region flush a request is -/

theorem jobOf_boundedDraw {src : List Byte} (hlen : src.length = 1024) {r : Rect} (hv : r.valid = true) (s : State) :
    jobOf s (.boundedDraw src r.x0 r.y0 r.x1 r.y1) = some (.flush (.src src) r) := by
  simp only [jobOf, hv, hlen, Bool.true_and, decide_true, if_true]

theorem jobOf_draw {src : List Byte} (hlen : src.length = 1024) (s : State) :
    jobOf s (.draw src) = some (.flush (.src src) Rect.whole) := by
  simp only [jobOf, hlen, if_true]

theorem jobOf_flush {s : State} {m : Memory} (hm : s.mode = .buffered) (hfb : s.fb = some m) :
    jobOf s .flush = some (.flush (.fb m) Rect.whole) := by
  simp only [jobOf, hm, hfb, if_true, Option.map_some]

/-- A request that makes writes, all of them answered `ok`. -/
theorem exec_completed {s : State} {i : Instr} {j : Job} (hj : jobOf s i = some j) (hok : AnswersOk j.writes s) :
    exec i s = .next (s.completed j.writes) := by
  obtain ⟨-, -, hexec, -⟩ := jobOf_spec hj
  rw [hexec, finish_ok hok]

/-- A request that makes writes, up to the first one answered `err`. -/
theorem exec_failedAt {s : State} {i : Instr} {j : Job} (hj : jobOf s i = some j) {us : List Write} {w : Write}
    {e : TransportError} (hfail : FailsAt j.writes s us w e) : exec i s = .next (s.failedAt us w e) := by
  obtain ⟨-, -, hexec, -⟩ := jobOf_spec hj
  rw [hexec, finish_err hfail]

/-! ## The page loop -/

/-- R160: the body of the loop makes the four writes of its page. -/
theorem pageBody_eq_emitAll (source : Source) {r : Rect} (hx : r.x0 ≤ 131) {p : Nat} (hp : p ≤ 7) (s : State) :
    pageBody source r p s = emitAll (pageWrites source r p) s := by
  simp only [pageBody, pageWrites, pageAddr_bytes p hp, colLo_bytes _ hx, colHi_bytes _ hx, emitCommand, emitData,
    emitAll_cons]
  simp only [emitAll, bind_going_self]

/-- R160: the loop makes the writes of its pages one after another. -/
theorem pageLoop_eq_emitAll (source : Source) {r : Rect} (hx : r.x0 ≤ 131) {ps : List Nat} (hps : ∀ p ∈ ps, p ≤ 7)
    (s : State) : pageLoop source r ps s = emitAll (ps.flatMap (pageWrites source r)) s := by
  induction ps generalizing s with
  | nil => rfl
  | cons p ps ih =>
    obtain ⟨hp, hps⟩ := List.forall_mem_cons.1 hps
    rw [pageLoop, List.flatMap_cons, emitAll_append, pageBody_eq_emitAll source hx hp]
    congr 1
    funext t
    exact ih hps t

/-- Settles O20: the sequencer's run and the page loop both make the writes of the rectangle's pages in order. -/
theorem regionFlushIsThePageLoop : Obligations.RegionFlushIsThePageLoop := by
  intro source r s hx0 hy0 hx1 hy1 hx hy
  have hv : r.valid = true := (valid_iff r).2 ⟨hx0, hy0, hx1, hy1, hx, hy⟩
  have hpages : ∀ p ∈ List.range' (r.y0 / 8) (r.y1 / 8 + 1 - r.y0 / 8), p ≤ 7 := by
    intro p hp
    rw [List.mem_range'_1] at hp
    omega
  rw [regionFlush_finish source hv, pageLoop_eq_emitAll source (by omega) hpages]
  rfl

/-! ## Where a failing write stands -/

/-- R31: the phase of the write number `k` of a page, counted from 0. -/
def Phase.ofNumber : Nat → Phase
  | 0 => .page
  | 1 => .colLo
  | 2 => .colHi
  | _ => .data

/-- R169: the position of the write number `k`, counted from 0, of the pages from `p` on: four writes to a page. -/
theorem flushPositions_getElem? (p : Nat) {n k : Nat} (hk : k < 4 * n) :
    (flushPositions p n)[k]? = some (.flush (p + k / 4) (.ofNumber (k % 4))) := by
  induction n generalizing p k with
  | zero => omega
  | succ n ih =>
    have hlen : (pagePositions p).length = 4 := rfl
    rw [flushPositions_succ]
    by_cases h : k < 4
    · rw [List.getElem?_append_left (by omega)]
      obtain rfl | rfl | rfl | rfl : k = 0 ∨ k = 1 ∨ k = 2 ∨ k = 3 := by omega
      all_goals rfl
    · rw [List.getElem?_append_right (by omega), hlen, ih (p + 1) (by omega),
        show p + 1 + (k - 4) / 4 = p + k / 4 by omega, show (k - 4) % 4 = k % 4 by omega]

/-- The positions of writes that are cut at one of them are cut at its position. -/
theorem writes_split {j : Job} {ps : List Sequencer} {us vs : List Write} {w : Write}
    (h : Writes j ps (us ++ w :: vs)) :
    ∃ qs q qs', ps = qs ++ q :: qs' ∧ Writes j qs us ∧ (j.due q).write = some w := by
  rw [Writes, List.map_append, List.map_cons] at h
  obtain ⟨qs, rest, rfl, hqs, hrest⟩ := List.map_eq_append_iff.1 h
  obtain ⟨q, qs', rfl, hq, -⟩ := List.map_eq_cons_iff.1 hrest
  exact ⟨qs, q, qs', rfl, hqs, hq⟩

theorem writes_length {j : Job} {qs : List Sequencer} {ws : List Write} (h : Writes j qs ws) :
    qs.length = ws.length := by
  simpa using congrArg List.length h

/-- R169: the writes of a region flush are cut at the write number `us.length`, its positions at that number's page and
phase. -/
theorem positions_split {source : Source} {r : Rect} (hv : r.valid = true) {us vs : List Write} {w : Write}
    (h : flushWrites source r = us ++ w :: vs) :
    ∃ qs q qs', r.positions = qs ++ q :: qs' ∧ Writes (.flush source r) qs us ∧
      ((Job.flush source r).due q).write = some w ∧
      q = .flush (r.firstPage + us.length / 4) (.ofNumber (us.length % 4)) := by
  have hwrites : Writes (.flush source r) r.positions (us ++ w :: vs) := h ▸ positions_writes (j := .flush source r) hv
  obtain ⟨qs, q, qs', hpos, hqs, hq⟩ := writes_split hwrites
  have hlen := writes_length hqs
  have hcount := positions_length r
  rw [hpos, List.length_append, List.length_cons] at hcount
  have hget : r.positions[us.length]? = some q := by simp [hpos, ← hlen]
  refine ⟨qs, q, qs', hpos, hqs, hq, Option.some.inj (hget.symm.trans ?_)⟩
  exact flushPositions_getElem? r.firstPage (by omega)

/-- Settles O21: the sequencer's positions are cut where the writes are, and the failing one has its number. -/
theorem failingWriteStandsAtItsPageAndPhase : Obligations.FailingWriteStandsAtItsPageAndPhase := by
  intro source r s us w e hx0 hy0 hx1 hy1 hx hy ⟨⟨vs, hws⟩, hok, herr⟩
  have hv : r.valid = true := (valid_iff r).2 ⟨hx0, hy0, hx1, hy1, hx, hy⟩
  obtain ⟨qs, q, qs', hpos, hqs, hdue, rfl⟩ := positions_split hv hws
  have hchain := positions_chain (j := .flush source r) hv
  rw [show (Job.flush source r).positions = _ from hpos] at hchain
  obtain ⟨t, hrun, htrace, hseq⟩ := runSequencer_fails hchain hqs hdue s hok herr qs'.length
  refine ⟨t, ?_, htrace, _, hseq, congrArg Phase.ofNumber, congrArg Phase.ofNumber, congrArg Phase.ofNumber,
    congrArg Phase.ofNumber⟩
  rw [regionFlush, Job.run, show (Job.flush source r).positions = _ from hpos, List.length_append, List.length_cons,
    ← hrun]
  cases qs <;> rfl

/-! ## The requests -/

/-- Settles O22: the rectangle is checked, then the length, and then the writes decide. -/
theorem boundedDrawSendsTheRectangle : Obligations.BoundedDrawSendsTheRectangle := by
  refine ⟨fun w src hopc hzero => decodeRequest_iff.2 (.of_boundedDraw_fields src ⟨hopc, hzero⟩),
    fun src x0 y0 x1 y1 s => ⟨fun hv => ?_, fun hx0 hy0 hx1 hy1 hx hy => ⟨fun hlen => ?_, fun hlen => ?_⟩⟩⟩
  · rw [exec_boundedDraw, if_neg hv]
  · rw [exec_boundedDraw, if_pos ⟨hx0, hy0, hx1, hy1, hx, hy⟩, if_neg hlen]
  · have hj := jobOf_boundedDraw hlen ((valid_iff ⟨x0, y0, x1, y1⟩).2 ⟨hx0, hy0, hx1, hy1, hx, hy⟩) s
    exact ⟨exec_completed hj, fun _ _ _ => exec_failedAt hj⟩

/-- Settles O23: the length is checked, and then the writes decide. -/
theorem drawSendsTheWholeDisplay : Obligations.DrawSendsTheWholeDisplay := by
  refine ⟨fun _ => decodeRequest_iff.2 .draw, fun src s => ⟨fun hlen => ?_, fun hlen => ?_⟩⟩
  · rw [exec_draw, if_neg hlen]
  · exact ⟨exec_completed (jobOf_draw hlen s), fun _ _ _ => exec_failedAt (jobOf_draw hlen s)⟩

/-- R166: the mode gate refuses FLUSH. -/
theorem exec_flush_refused {s : State} (h : s.mode = .directWrite) : exec .flush s = .next (s.refusedFor .modeGate) := by
  unfold exec execFlush
  exact gated_refuse (by simp [h])

/-- Settles O24: past the mode gate, the writes decide. -/
theorem flushSendsTheFramebuffer : Obligations.FlushSendsTheFramebuffer :=
  ⟨fun _ => decodeRequest_iff.2 .flush, fun _ => exec_flush_refused,
    fun _ _ hm hfb => ⟨exec_completed (jobOf_flush hm hfb), fun _ _ _ => exec_failedAt (jobOf_flush hm hfb)⟩⟩

/-! ## How many writes there are -/

/-- R167: `es` are four writes for each of `n` pages, three commands of one byte and one data write of `len` bytes. -/
structure PageWriteCounts (es : List TraceEntry) (n len : Nat) : Prop where
  total : es.length = 4 * n
  commands : (es.filter fun e => e.kind = .cmd).length = 3 * n
  dataWrites : (es.filter fun e => e.kind = .data).length = n
  commandBytes : ∀ e ∈ es, e.kind = .cmd → e.bytes.length = 1
  dataBytes : ∀ e ∈ es, e.kind = .data → e.bytes.length = len

theorem flushWrites_counts {source : Source} (hs : source.full) {r : Rect} (hv : r.valid = true) :
    PageWriteCounts (okEntries (flushWrites source r)) r.pageCount r.columns := by
  obtain ⟨-, hlast, hcount⟩ := valid_pages hv
  obtain ⟨-, -, hx1, -⟩ := (valid_iff r).1 hv
  obtain ⟨h1, h2, h3, h4, h5⟩ := pages_count source r r.columns r.pageCount r.firstPage
    fun p hp => memRead_length hs hx1 (by omega)
  exact ⟨h1, h2, h3, h4, h5⟩

/-- Settles O25: by the counts of the rectangle's writes; the whole display has eight pages of 128 columns. -/
theorem writeCountsOfARegionFlush : Obligations.WriteCountsOfARegionFlush := by
  refine ⟨fun src x0 y0 x1 y1 s hlen hx0 hy0 hx1 hy1 hx hy hok => ?_, fun src m i s hi => ?_⟩
  · have hv : Rect.valid ⟨x0, y0, x1, y1⟩ = true := (valid_iff _).2 ⟨hx0, hy0, hx1, hy1, hx, hy⟩
    have hcounts := flushWrites_counts (source := .src src) hlen hv
    have hpages : Rect.pageCount ⟨x0, y0, x1, y1⟩ = y1 / 8 - y0 / 8 + 1 := by
      simp only [Rect.pageCount, Rect.lastPage, Rect.firstPage, pageOf, Config.pageRows]
      omega
    have hcolumns : Rect.columns ⟨x0, y0, x1, y1⟩ = x1 - x0 + 1 := by
      simp only [Rect.columns]
      omega
    rw [hpages, hcolumns] at hcounts
    exact ⟨_, _, exec_completed (jobOf_boundedDraw hlen hv s) hok, rfl, by omega, by omega, hcounts.total,
      hcounts.commands, hcounts.dataWrites, hcounts.commandBytes, hcounts.dataBytes⟩
  · obtain ⟨source, hs, hj, hok⟩ : ∃ source : Source, source.full ∧ jobOf s i = some (.flush source Rect.whole) ∧
        AnswersOk (flushWrites source Rect.whole) s := by
      obtain ⟨rfl, hlen, hok⟩ | ⟨rfl, hm, hfb, hok⟩ := hi
      · exact ⟨.src src, hlen, jobOf_draw hlen s, hok⟩
      · exact ⟨.fb m, trivial, jobOf_flush hm hfb, hok⟩
    have hcounts := flushWrites_counts hs valid_whole
    exact ⟨_, _, exec_completed hj hok, rfl, hcounts.commands, hcounts.dataWrites, hcounts.dataBytes⟩

/-- R162: a rectangle whose rows lie in one page has that page alone. -/
theorem pageList_eq_singleton {r : Rect} {p : Nat} (h0 : r.y0 / 8 = p) (h1 : r.y1 / 8 = p) : r.pageList = [p] := by
  simp only [Rect.pageList, Rect.pageCount, Rect.firstPage, Rect.lastPage, pageOf, Config.pageRows, h0, h1,
    Nat.add_sub_cancel_left]
  rfl

/-- Settles O26: the rectangle has one page, and the writes are those of that page. -/
theorem onePageRowIsThreeCommandsAndOneDataWrite : Obligations.OnePageRowIsThreeCommandsAndOneDataWrite := by
  intro src x0 y0 x1 y1 p s hlen hx hx1 hp hy0 hy hy1 hok
  have hv : Rect.valid ⟨x0, y0, x1, y1⟩ = true :=
    (valid_iff _).2 ⟨show x0 < 128 by omega, show y0 < 64 by omega, hx1, show y1 < 64 by omega, hx, hy⟩
  have hpages : Rect.pageList ⟨x0, y0, x1, y1⟩ = [p] :=
    pageList_eq_singleton (show y0 / 8 = p by omega) (show y1 / 8 = p by omega)
  refine ⟨_, exec_completed (jobOf_boundedDraw hlen hv s) hok, ?_⟩
  simp only [State.completed, Job.writes, flushWrites, hpages, List.flatMap_cons, List.flatMap_nil, List.append_nil,
    okEntries, pageWrites, List.map_cons, List.map_nil, memRead, Rect.columns]
  rw [show p * Config.width + x0 = 128 * p + x0 by simp only [Config.width]; omega,
    show x1 + 1 - x0 = x1 - x0 + 1 by omega]

/-! ## What the trace decodes to -/

/-- R40: the byte a source holds at an index. -/
def Source.byteAt : Source → Nat → Option Byte
  | .fb m, a => some (m.read a)
  | .src bytes, a => bytes[a]?
  | .zero, _ => some 0x00

/-- R11: a read of `n` bytes gives the source's bytes in index order. -/
theorem memRead_getElem? (source : Source) (a : Nat) {n k : Nat} (hk : k < n) :
    (memRead source a n)[k]? = source.byteAt (a + k) := by
  cases source with
  | fb m => simp [memRead, Source.byteAt, hk]
  | src bytes => simp [memRead, Source.byteAt, hk]
  | zero => simp [memRead, Source.byteAt, hk]

/-- R171: the writes of a region flush decode to the source's bytes on the rectangle, and to nothing elsewhere. -/
theorem decodeTrace_flushWrites {source : Source} (hs : source.full) {r : Rect} (hv : r.valid = true) :
    ∃ map, decodeTrace (okEntries (flushWrites source r)) = some map ∧
      ∀ p c, map.at p c =
        if r.firstPage ≤ p ∧ p ≤ r.lastPage ∧ r.x0 ≤ c ∧ c ≤ r.x1 then source.byteAt (p * 128 + c) else none := by
  obtain ⟨hle, hlast, hcount⟩ := valid_pages hv
  obtain ⟨hx0, -, hx1, -, hx, -⟩ := (valid_iff r).1 hv
  obtain ⟨map, hdecode, hmap⟩ :=
    decodeFrom_pages source r hx0 r.pageCount r.firstPage (by omega) [] [] Address.unset
  rw [List.append_nil] at hdecode
  refine ⟨map, hdecode, fun p c => ?_⟩
  rw [hmap]
  by_cases hp : r.firstPage ≤ p ∧ p ≤ r.lastPage
  · have hlen : (memRead source (p * 128 + r.x0) r.columns).length = r.columns := memRead_length hs hx1 (by omega)
    have hcolumns : r.columns = r.x1 + 1 - r.x0 := rfl
    by_cases hc : r.x0 ≤ c ∧ c ≤ r.x1
    · rw [if_pos (by omega), if_pos ⟨hp.1, hp.2, hc⟩, memRead_getElem? source _ (by omega),
        show p * 128 + r.x0 + (c - r.x0) = p * 128 + c by omega]
    · rw [if_neg (by omega), if_neg (by omega)]
      rfl
  · rw [if_neg (by omega), if_neg (by omega)]
    rfl

/-- R171: the whole display is its eight pages of 128 columns. -/
theorem decodeTrace_flushWrites_whole {source : Source} (hs : source.full) :
    ∃ map, decodeTrace (okEntries (flushWrites source Rect.whole)) = some map ∧
      ∀ p c, map.at p c = if p ≤ 7 ∧ c ≤ 127 then source.byteAt (p * 128 + c) else none := by
  obtain ⟨map, hdecode, hmap⟩ := decodeTrace_flushWrites hs valid_whole
  refine ⟨map, hdecode, fun p c => (hmap p c).trans (if_congr ?_ rfl rfl)⟩
  show 0 ≤ p ∧ p ≤ 7 ∧ 0 ≤ c ∧ c ≤ 127 ↔ p ≤ 7 ∧ c ≤ 127
  omega

/-- What a completed request added to the trace. -/
theorem completed_trace_drop (s : State) (ws : List Write) :
    (s.completed ws).trace.drop s.trace.length = okEntries ws := by
  simp [State.completed]

/-- Settles O28: what a completed region flush added is its writes, and they decode to the bytes of its source. -/
theorem traceDecodesToTheBufferSent : Obligations.TraceDecodesToTheBufferSent := by
  refine ⟨fun src s hlen hok => ?_, fun src x0 y0 x1 y1 s hlen hx0 hy0 hx1 hy1 hx hy hok => ?_,
    fun m s hm hfb hok => ?_⟩
  · obtain ⟨map, hdecode, hmap⟩ := decodeTrace_flushWrites_whole (source := .src src) hlen
    exact ⟨_, map, exec_completed (jobOf_draw hlen s) hok, by rwa [completed_trace_drop], hmap⟩
  · have hv : Rect.valid ⟨x0, y0, x1, y1⟩ = true := (valid_iff _).2 ⟨hx0, hy0, hx1, hy1, hx, hy⟩
    obtain ⟨map, hdecode, hmap⟩ := decodeTrace_flushWrites (source := .src src) hlen hv
    exact ⟨_, map, exec_completed (jobOf_boundedDraw hlen hv s) hok, by rwa [completed_trace_drop], hmap⟩
  · obtain ⟨map, hdecode, hmap⟩ := decodeTrace_flushWrites_whole (source := .fb m) trivial
    exact ⟨_, map, exec_completed (jobOf_flush hm hfb) hok, by rwa [completed_trace_drop], hmap⟩

/-! ## The same writes again -/

/-- The entries of writes that were answered `ok` show those writes. -/
theorem writes_of_okEntries (ws : List Write) : (okEntries ws).map (fun x => (x.kind, x.bytes)) = ws := by
  rw [okEntries, List.map_map]
  exact List.map_id ws

/-- Settles O29: the failed FLUSH leaves mode and framebuffer, so the next one sends that framebuffer again. -/
theorem retryAfterFailureSendsTheSameBytes : Obligations.RetryAfterFailureSendsTheSameBytes := by
  intro s m us w e hm hfb hfail
  have hretry : jobOf (s.failedAt us w e) .flush = some (.flush (.fb m) Rect.whole) := jobOf_flush hm hfb
  obtain ⟨map, hdecode, hmap⟩ := decodeTrace_flushWrites_whole (source := .fb m) trivial
  exact ⟨_, exec_failedAt (jobOf_flush hm hfb) hfail, rfl, hfb, fun hok =>
    ⟨_, _, map, exec_completed hretry hok, rfl, writes_of_okEntries _, hdecode, hmap⟩⟩

/-- The writes a request makes where it returns `Ok`: none where it has nothing to send. -/
def requestWrites (s : State) (i : Instr) : List Write := (jobOf s i).elim [] Job.writes

theorem requestWrites_congr {s s' : State} (hm : s'.mode = s.mode) (hfb : s'.fb = s.fb) (i : Instr) :
    requestWrites s' i = requestWrites s i := by
  rw [requestWrites, requestWrites, jobOf_congr hm hfb]

/-- A request that returned `Ok` has added exactly its writes to the trace. -/
theorem trace_of_response_ok {i : Instr} (hreq : i.isRequest = true) {s t : State} (h : exec i s = .next t)
    (hok : t.response = some .ok) : t.trace = s.trace ++ okEntries (requestWrites s i) := by
  cases exec_effect h with
  | command hcmd => simp [hreq] at hcmd
  | writes ws hws ht =>
    have hreqWrites : requestWrites s i = ws := by
      obtain ⟨rfl, rfl⟩ | ⟨rfl, rfl⟩ | ⟨src, rfl, hlen, rfl⟩ | ⟨src, x0, y0, x1, y1, rfl, hv, hlen, rfl⟩ |
        ⟨m, rfl, hm, hfb, rfl⟩ := hws
      · rfl
      · rfl
      · rw [requestWrites, jobOf_draw hlen]; rfl
      · rw [requestWrites, jobOf_boundedDraw hlen hv]; rfl
      · rw [requestWrites, jobOf_flush hm hfb]; rfl
    rcases finish_cases ws s with ⟨-, hfinish⟩ | ⟨us, w, e, -, hfinish⟩
    · rw [ht, hfinish, hreqWrites]
      rfl
    · rw [ht, hfinish] at hok
      simp [State.failedAt] at hok
  | ends r hr ht =>
    obtain rfl : r = .ok := by simpa [ht] using hok
    simp at hr
  | framebuffer mode m hi ht =>
    have hnone : jobOf s i = none := by
      obtain ⟨rfl, -⟩ | ⟨rfl, -⟩ | ⟨x, y, v, m₀, rfl, -⟩ := hi <;> rfl
    simp [ht, requestWrites, hnone, okEntries]

/-- Settles O30: what a request that returned `Ok` added depends on its operands, the mode and the framebuffer. -/
theorem repeatedFlushesEmitTheSameWrites : Obligations.RepeatedFlushesEmitTheSameWrites := by
  intro i s s' t t' hi hm hfb h h' hok hok'
  have hreq : i.isRequest = true := by
    obtain rfl | ⟨src, rfl⟩ | ⟨src, x0, y0, x1, y1, rfl⟩ := hi <;> rfl
  refine ⟨okEntries (requestWrites s i), trace_of_response_ok hreq h hok, ?_⟩
  rw [trace_of_response_ok hreq h' hok', requestWrites_congr hm hfb]

end Sys2Proof.Machine

/-! SUPPORT. The statements of 44_driver_control.md: INTO_BUFFERED (R192), the writes of INIT (R194, R195) and of RESET
(R197), and which requests the mode gate refuses (R190, R191). -/

namespace Sys2Proof.Machine

/-! ## INTO_BUFFERED -/

/-- R190, R191: the mode gate refuses INTO_BUFFERED once the mode is Buffered. -/
theorem exec_intoBuffered_refused {s : State} (h : s.mode = .buffered) :
    exec .intoBuffered s = .next (s.refusedFor .modeGate) := by
  unfold exec execIntoBuffered
  exact gated_refuse (by simp [h])

/-- Settles O31: the framebuffer that INTO_BUFFERED makes is the zeroed one. -/
theorem intoBufferedMakesAZeroedFramebuffer : Obligations.IntoBufferedMakesAZeroedFramebuffer :=
  ⟨fun _ => decodeRequest_iff.2 .intoBuffered,
    fun _ hm => ⟨_, exec_intoBuffered hm, wf_zeroed, read_zeroed⟩,
    fun _ => exec_intoBuffered_refused⟩

/-! ## The writes of INIT -/

/-- R160: the data writes of a region flush are one for each page, the bytes of its row. -/
theorem filter_data_flushWrites (source : Source) (r : Rect) :
    (flushWrites source r).filter (fun w => w.1 = .data) =
      r.pageList.map fun p => (.data, memRead source (p * Config.width + r.x0) r.columns) := by
  rw [flushWrites, List.filter_flatMap, List.map_eq_flatMap]
  rfl

/-- R160: a region flush makes three command writes for each page. -/
theorem length_filter_cmd_flushWrites (source : Source) (r : Rect) :
    ((flushWrites source r).filter (fun w => w.1 = .cmd)).length = 3 * r.pageCount := by
  have hpage (p : Nat) : ((pageWrites source r p).filter (fun w => w.1 = .cmd)).length = 3 := rfl
  simp [flushWrites, List.filter_flatMap, List.length_flatMap, hpage, Rect.pageList, Nat.mul_comm]

/-- R195: nine commands, three for each of the eight pages, and the one that turns the display on. -/
theorem length_filter_cmd_initWrites : (initWrites.filter (fun w => w.1 = .cmd)).length = 34 := by
  rw [initWrites, List.filter_append, List.filter_append, List.length_append, List.length_append,
    length_filter_cmd_flushWrites]
  rfl

/-- R195: the data of INIT is that of its zero draw. -/
theorem filter_data_initWrites :
    initWrites.filter (fun w => w.1 = .data) = List.replicate 8 (.data, List.replicate 128 0x00) := by
  rw [initWrites, List.filter_append, List.filter_append, filter_data_flushWrites]
  rfl

/-- Settles O32: the writes of INIT decide, in every state. -/
theorem initEmitsItsFixedSequence : Obligations.InitEmitsItsFixedSequence :=
  ⟨fun _ => decodeRequest_iff.2 .init, fun _ =>
    ⟨exec_completed (j := .init) rfl, fun _ _ _ => exec_failedAt (j := .init) rfl, rfl, length_filter_cmd_initWrites,
      filter_data_initWrites⟩⟩

/-! ## The parameters of INIT -/

/-- R8: the admissible values of `P_BIAS`. -/
theorem biasByte_admissible (b : BiasChoice) : biasByte b = 0xA2 ∨ biasByte b = 0xA3 := by cases b <;> simp [biasByte]

/-- R8: the admissible values of `P_SEG`. -/
theorem segByte_admissible (d : Direction) : segByte d = 0xA0 ∨ segByte d = 0xA1 := by cases d <;> simp [segByte]

/-- R8: the admissible values of `P_COM`. -/
theorem comByte_admissible (d : Direction) : comByte d = 0xC0 ∨ comByte d = 0xC8 := by cases d <;> simp [comByte]

/-- R8: the admissible values of a byte of `P_PWR`. -/
theorem stageByte_admissible (p : PowerStage) : stageByte p = 0x2C ∨ stageByte p = 0x2E ∨ stageByte p = 0x2F := by
  cases p <;> simp [stageByte]

/-- R8: the admissible values of `P_RATIO`. -/
theorem ratioByte_admissible (r : Fin 8) :
    0x20 ≤ (BitVec.ofNat 8 (0x20 + r.val)).toNat ∧ (BitVec.ofNat 8 (0x20 + r.val)).toNat ≤ 0x27 := by
  rw [BitVec.toNat_ofNat]
  omega

/-- R194, R195: what a completed INIT adds begins with its nine commands. -/
theorem completed_initWrites_trace (s : State) :
    (s.completed initWrites).trace =
      s.trace ++ okEntries initFirstWrites ++ okEntries (flushWrites .zero Rect.whole ++ [(.cmd, [0xAF])]) := by
  rw [State.completed, initWrites, List.append_assoc, okEntries_append, List.append_assoc]

/-- Settles O33: the parameters are the model's own constants, each of a type that has the admissible values. -/
theorem initBeginsWithNineCommands : Obligations.InitBeginsWithNineCommands := by
  refine ⟨biasByte Config.pBias, segByte Config.pSeg, comByte Config.pCom, BitVec.ofNat 8 (0x20 + Config.pRatio.val),
    stageByte Config.pPwr0, stageByte Config.pPwr1, stageByte Config.pPwr2, biasByte_admissible _,
    segByte_admissible _, comByte_admissible _, ratioByte_admissible _, ?_, fun s hok => ?_⟩
  · simp only [List.forall_mem_cons]
    exact ⟨stageByte_admissible _, stageByte_admissible _, stageByte_admissible _, by simp⟩
  · exact ⟨_, _, exec_completed (j := .init) rfl hok, completed_initWrites_trace s⟩

/-! ## RESET -/

/-- Settles O34: its one write decides. -/
theorem resetEmitsOneCommand : Obligations.ResetEmitsOneCommand :=
  ⟨fun _ => decodeRequest_iff.2 .reset, fun s =>
    ⟨fun hok => exec_completed (j := .reset) rfl ⟨hok, trivial⟩,
      fun e herr => exec_failedAt (j := .reset) rfl ⟨⟨[], rfl⟩, trivial, by rwa [wrote_nil]⟩⟩⟩

/-! ## The mode gate -/

/-- R190: the pairs of request and mode that the mode gate refuses. -/
def GateRefuses (i : Instr) (s : State) : Prop :=
  ((i = .clear ∨ i = .flush ∨ ∃ x y v, i = .setPixel x y v) ∧ s.mode = .directWrite) ∨
    (i = .intoBuffered ∧ s.mode = .buffered)

/-- R191: a request the gate refuses sets the mark and does nothing else. -/
theorem exec_of_gateRefuses {i : Instr} {s : State} (h : GateRefuses i s) :
    exec i s = .next (s.refusedFor .modeGate) := by
  obtain ⟨rfl | rfl | ⟨x, y, v, rfl⟩, hm⟩ | ⟨rfl, hm⟩ := h
  · exact exec_clear_refused hm
  · exact exec_flush_refused hm
  · exact exec_setPixel_refused hm x y v
  · exact exec_intoBuffered_refused hm

/-- From `s` to `t` no refusal was recorded: the mark `refused` stays and the response in `t` is no refusal. -/
def NotRefused (s t : State) : Prop := t.refused = s.refused ∧ ∀ r, t.response ≠ some (.refused r)

/-- R222: writes end a request with `Ok` or with the transport's error. -/
theorem finish_notRefused (ws : List Write) (s : State) : NotRefused s (emitAll ws s).finish := by
  obtain ⟨-, hok | ⟨e, herr⟩⟩ := writes_response ws s
  · exact ⟨(writes_leave ws s).refused, by simp [hok]⟩
  · exact ⟨(writes_leave ws s).refused, by simp [herr]⟩

/-- R190: a request past the gate is not refused. -/
theorem exec_notRefused {i : Instr} (hreq : i.isRequest = true) {s t : State} (hgate : ¬ GateRefuses i s)
    (h : exec i s = .next t) : NotRefused s t := by
  cases exec_effect h with
  | command hcmd => simp [hreq] at hcmd
  | writes ws _ ht => exact ht ▸ finish_notRefused ws s
  | framebuffer mode m _ ht => exact ht ▸ ⟨rfl, by simp⟩
  | ends r hr ht =>
    obtain ⟨rfl, -⟩ | ⟨-, hrefuses⟩ | ⟨src, x0, y0, x1, y1, -, -, -, rfl⟩ := hr
    · exact ht ▸ ⟨rfl, by simp⟩
    · exact absurd hrefuses hgate
    · exact ht ▸ ⟨rfl, by simp⟩

/-- Settles O35: the refused pairs by their requests, the others by what an instruction can do. -/
theorem modeGateDecidesWhichRequestsRun : Obligations.ModeGateDecidesWhichRequestsRun :=
  fun _ _ hreq => ⟨exec_of_gateRefuses, fun hgate _ => exec_notRefused hreq hgate⟩

end Sys2Proof.Machine

/-! SUPPORT. The statements of 60_exceptions.md: the outcomes and their codes (R220), what a request that ends in each of
them has done and why it ended so (R221, R222, R224), and that mode and framebuffer do not depend on the transport
(R225). -/

namespace Sys2Proof.Machine

/-! ## A request by the response it ends with -/

/-- R221: the requests with operands outside the bounds: SET_PIXEL off the display, BOUNDED_DRAW with an invalid
rectangle, and DRAW with a source buffer of the wrong length. -/
def OutsideBounds (i : Instr) : Prop :=
  (∃ x y v, i = .setPixel x y v ∧ (128 ≤ x ∨ 64 ≤ y)) ∨
    (∃ src x0 y0 x1 y1, i = .boundedDraw src x0 y0 x1 y1 ∧
      ¬ (x0 < 128 ∧ y0 < 64 ∧ x1 < 128 ∧ y1 < 64 ∧ x0 ≤ x1 ∧ y0 ≤ y1)) ∨
    ∃ src, i = .draw src ∧ src.length ≠ 1024

/-- R222: the requests that make transport writes. -/
def MakesWrites (i : Instr) : Prop :=
  i = .init ∨ i = .reset ∨ i = .flush ∨ (∃ src, i = .draw src) ∨ ∃ src x0 y0 x1 y1, i = .boundedDraw src x0 y0 x1 y1

/-- What a request that went from `s` to `t` has done, and why, where it did not return `Ok`. -/
inductive EndsWith (i : Instr) (s t : State) : Response → Prop where
  | ok : EndsWith i s t .ok
  | outOfBounds (hi : OutsideBounds i) (ht : t = s.outOfBounds) : EndsWith i s t .outOfBounds
  | transportFailure {us : List Write} {w : Write} {e : TransportError} (hi : MakesWrites i) (hok : AnswersOk us s)
      (herr : (s.wrote us).answer w.1 w.2 = .err e) (ht : t = s.failedAt us w e) : EndsWith i s t (.transportFailure e)
  | refused (hi : GateRefuses i s) (ht : t = s.refusedFor .modeGate) : EndsWith i s t (.refused .modeGate)
  | faulted {src : List Byte} {x0 y0 x1 y1 : Nat} (hi : i = .boundedDraw src x0 y0 x1 y1)
      (hvalid : Rect.valid ⟨x0, y0, x1, y1⟩ = true) (hlen : src.length ≠ 1024)
      (ht : t = s.faultedFor (.srcLength src.length)) : EndsWith i s t (.faulted (.srcLength src.length))

/-- A request that ends in a next state has responded, and its response tells what it has done. -/
theorem exec_endsWith {i : Instr} (hreq : i.isRequest = true) {s t : State} (h : exec i s = .next t) :
    ∃ r, t.response = some r ∧ EndsWith i s t r := by
  cases exec_effect h with
  | command hcmd => simp [hreq] at hcmd
  | writes ws hws ht =>
    rcases finish_cases ws s with ⟨-, hfinish⟩ | ⟨us, w, e, ⟨-, hok, herr⟩, hfinish⟩
    · exact ⟨.ok, by rw [ht, hfinish]; rfl, .ok⟩
    · have hi : MakesWrites i := by
        obtain ⟨hi, -⟩ | ⟨hi, -⟩ | ⟨src, hi, -⟩ | ⟨src, x0, y0, x1, y1, hi, -⟩ | ⟨m, hi, -⟩ := hws
        · exact .inl hi
        · exact .inr (.inl hi)
        · exact .inr (.inr (.inr (.inl ⟨src, hi⟩)))
        · exact .inr (.inr (.inr (.inr ⟨src, x0, y0, x1, y1, hi⟩)))
        · exact .inr (.inr (.inl hi))
      exact ⟨.transportFailure e, by rw [ht, hfinish]; rfl, .transportFailure hi hok herr (ht.trans hfinish)⟩
  | ends r hr ht =>
    refine ⟨r, by rw [ht, endRequest_response], ?_⟩
    obtain ⟨rfl, hi⟩ | ⟨rfl, hi⟩ | ⟨src, x0, y0, x1, y1, hi, hvalid, hlen, rfl⟩ := hr
    · simp only [ne_eq, valid_iff] at hi
      exact .outOfBounds hi ht
    · exact .refused hi ht
    · exact .faulted hi hvalid hlen ht
  | framebuffer mode m _ ht => exact ⟨.ok, by rw [ht, endRequest_response], .ok⟩

/-- What a request has done, from the response it left. -/
theorem endsWith_of_response {i : Instr} (hreq : i.isRequest = true) {s t : State} (h : exec i s = .next t)
    {r : Response} (hr : t.response = some r) : EndsWith i s t r := by
  obtain ⟨r', hr', hend⟩ := exec_endsWith hreq h
  obtain rfl : r' = r := Option.some.inj (hr'.symm.trans hr)
  exact hend

/-! ## The outcomes -/

/-- Settles O36: by the outcomes and their reasons. -/
theorem outcomesHaveTheirCodes : Obligations.OutcomesHaveTheirCodes := by
  refine ⟨rfl, rfl, fun _ => rfl, rfl, fun _ => rfl, fun _ => rfl, rfl, fun r => ?_⟩
  cases r with
  | ok | outOfBounds | transportFailure e => simp [Response.completes, Response.code]
  | refused reason => cases reason <;> simp [Response.completes, Response.code]
  | faulted reason => cases reason <;> simp [Response.completes, Response.code]

/-- Settles O48: each of the three checks comes before any write, and no other request responds `OutOfBounds`. -/
theorem outOfBoundsMakesNoWrite : Obligations.OutOfBoundsMakesNoWrite := by
  refine ⟨fun s x y v hm hxy => exec_setPixel_invalid hm hxy v, fun s src x0 y0 x1 y1 hv => ?_, fun s src hlen => ?_,
    fun i s t hreq h hr => ?_⟩
  · rw [exec_boundedDraw, if_neg hv]
  · rw [exec_draw, if_neg hlen]
  · cases endsWith_of_response hreq h hr with
    | outOfBounds hi ht => exact ⟨ht, hi⟩

/-- Settles O50: the request has made its writes up to the first one answered `err`. -/
theorem transportFailureIsTheLastEntry : Obligations.TransportFailureIsTheLastEntry := by
  intro i s t e hreq h hr
  cases endsWith_of_response hreq h hr with
  | transportFailure hi hok herr ht => exact ⟨⟨_, _, hok, herr, ht⟩, hi⟩

/-- R30: no step goes on from a block whose mark `faulted` is set. -/
theorem step_ne_next_of_faulted {s : State} {r : FaultReason} (h : s.faulted = some r) (u : State) :
    step s ≠ .next u := fun hu => by simp [(running_of_step hu).2] at h

/-- Settles O51: the length is the one check whose failure is a fault, and it comes before any write. -/
theorem faultedRequestsChangeOnlyTheMark : Obligations.FaultedRequestsChangeOnlyTheMark := by
  intro i s t r hreq h hr
  have hmark : t.faulted = some r := (marks_of_response hreq h).2 r hr
  cases endsWith_of_response hreq h hr with
  | faulted hi hvalid hlen ht =>
    exact ⟨ht, step_ne_next_of_faulted hmark, _, _, _, _, _, hi, (valid_iff _).1 hvalid, hlen, rfl⟩

/-! ## Mode and framebuffer -/

/-- Two states with the same mode and the same framebuffer. -/
structure SameMemory (s s' : State) : Prop where
  mode : s'.mode = s.mode
  fb   : s'.fb = s.fb

/-- Where the first outcome is a next state the second is one as well, with the same mode and framebuffer. -/
def SameMemoryAfter (o o' : Host.Outcome State Fault Refusal) : Prop :=
  ∀ t, o = .next t → ∃ u, o' = .next u ∧ SameMemory t u

theorem sameMemoryAfter_next {t u : State} (h : SameMemory t u) : SameMemoryAfter (.next t) (.next u) := by
  rintro _ ⟨⟩
  exact ⟨u, rfl, h⟩

section
variable {s s' : State} (h : SameMemory s s')
include h

theorem SameMemory.after_endRequest (r : Response) : SameMemory (endRequest r s) (endRequest r s') :=
  ⟨by simp [h.mode], by simp [h.fb]⟩

theorem SameMemory.after_command (c : Option (List Byte)) :
    SameMemory (emitCommand c s).afterWrite (emitCommand c s').afterWrite :=
  ⟨by simp [command_leaves, h.mode], by simp [command_leaves, h.fb]⟩

theorem SameMemory.after_finish (ws : List Write) : SameMemory (emitAll ws s).finish (emitAll ws s').finish :=
  ⟨by simp [(writes_leave ws _).mode, h.mode], by simp [(writes_leave ws _).fb, h.fb]⟩

theorem SameMemory.after_gated {m : Mode} {body : State → Host.Outcome State Fault Refusal}
    (hbody : SameMemoryAfter (body s) (body s')) : SameMemoryAfter (gated m body s) (gated m body s') := by
  by_cases hm : s.mode = m
  · rwa [gated_pass hm, gated_pass (h.mode.trans hm)]
  · rw [gated_refuse hm, gated_refuse (h.mode ▸ hm)]
    exact sameMemoryAfter_next ⟨h.mode, h.fb⟩

theorem SameMemory.after_withFramebuffer {body : Memory → State → State}
    (hbody : ∀ m, SameMemory (body m s) (body m s')) :
    SameMemoryAfter (withFramebuffer body s) (withFramebuffer body s') := by
  unfold withFramebuffer
  rw [h.fb]
  cases s.fb with
  | none => rintro t ⟨⟩
  | some m => exact sameMemoryAfter_next (hbody m)

/-- R165, R164, R195, R197: the requests whose operands fix what they do. -/
theorem SameMemory.after_callerBuffer {i : Instr}
    (hi : i = .init ∨ i = .reset ∨ (∃ src, i = .draw src) ∨ ∃ src x0 y0 x1 y1, i = .boundedDraw src x0 y0 x1 y1) :
    SameMemoryAfter (exec i s) (exec i s') := by
  obtain ⟨ws, hexec⟩ | ⟨r, hexec⟩ := exec_callerBuffer hi <;> rw [hexec, hexec]
  · exact sameMemoryAfter_next (h.after_finish ws)
  · exact sameMemoryAfter_next (h.after_endRequest r)

/-- What an instruction makes of mode and framebuffer depends on mode and framebuffer alone. -/
theorem SameMemory.after_exec (i : Instr) : SameMemoryAfter (exec i s) (exec i s') := by
  cases i with
  | init => exact h.after_callerBuffer (.inl rfl)
  | reset => exact h.after_callerBuffer (.inr (.inl rfl))
  | draw src => exact h.after_callerBuffer (.inr (.inr (.inl ⟨src, rfl⟩)))
  | boundedDraw src x0 y0 x1 y1 => exact h.after_callerBuffer (.inr (.inr (.inr ⟨src, x0, y0, x1, y1, rfl⟩)))
  | clear => exact h.after_gated (h.after_withFramebuffer fun m => ⟨h.mode, rfl⟩)
  | flush =>
    refine h.after_gated (h.after_withFramebuffer fun m => ?_)
    simp only [regionFlush_finish _ valid_whole]
    exact h.after_finish (flushWrites (.fb m) Rect.whole)
  | setPixel x y on =>
    unfold exec execSetPixel
    refine h.after_gated ?_
    split
    · exact h.after_withFramebuffer fun m => ⟨h.mode, rfl⟩
    · exact sameMemoryAfter_next (h.after_endRequest .outOfBounds)
  | intoBuffered =>
    unfold exec execIntoBuffered
    exact h.after_gated (sameMemoryAfter_next ⟨rfl, rfl⟩)
  | _ =>
    rw [exec_command rfl, exec_command rfl]
    exact sameMemoryAfter_next (h.after_command _)

end

/-- Settles O45: the answers belong neither to the mode nor to the framebuffer, and no instruction makes these of
anything else. -/
theorem transportDoesNotReachTheFramebuffer : Obligations.TransportDoesNotReachTheFramebuffer := by
  intro i s t other h
  have hsame : SameMemory s { s with answers := other } := ⟨rfl, rfl⟩
  obtain ⟨u, hu, hmem⟩ := hsame.after_exec i t h
  exact ⟨u, hu, hmem.mode, hmem.fb⟩

end Sys2Proof.Machine

/-! SUPPORT. The statement of 70_reset_and_hazards.md: the block waits for its first request and emits nothing by
itself (R250). -/

namespace Sys2Proof.Machine

/-- R250: with nothing on the request port there is nothing to run and nothing to refuse. -/
theorem fetch_of_port_nil {s : State} (hp : s.port = []) : fetch s = .idle := by
  simp [fetch, hp]

/-- R250: a step of a running state with no request under way waits where there is nothing to fetch. -/
theorem step_wait {s : State} (h : s.Running) (hs : s.seq = none) (hf : fetch s = .idle) : step s = .next s := by
  simp [step, h.1, h.2, hs, hf]

/-- R33, R30: no mark is set after power-on. -/
theorem reset_running : State.reset.Running := ⟨rfl, rfl⟩

/-- Settles O57: an empty port gives nothing to fetch, and the state after power-on is one with an empty port, no
request under way and an empty trace. -/
theorem blockWaitsForItsFirstRequest : Obligations.BlockWaitsForItsFirstRequest :=
  ⟨fun _ h hs hp => step_wait h hs (fetch_of_port_nil hp), reset_running, rfl, rfl, rfl⟩

end Sys2Proof.Machine
